-- ==== Sys2Proof/Word.lean ====
section
/-! DEFINITION. The word types of the core: the data word of a configured width, the program word and
the register index. -/

namespace Sys2Proof

/-- A value of width XLEN (rule R7): the contents of a register, a memory cell, the pc, an input and an
output value. XLEN is a field of the configuration (rule R6; log 3). -/
abbrev Word (xlen : Nat) := BitVec xlen

/-- A word of the program store. It is wide enough for the extended layout (rule R51, 10 bits); the
9-bit words of the base layout (rule R52) are held zero-extended (log 13). -/
abbrev ProgWord := BitVec 10

/-- A register index: a 3-bit field, so one of the NCELL = 8 cells (rules R6, R11). -/
abbrev RegIdx := Fin 8

end Sys2Proof
end

