-- ==== Sys2Proof/Config.lean ====
section
/-! DEFINITION. The configuration of rule R6: what is fixed at construction of a core. -/

namespace Sys2Proof

/-- CFG (rules R2, R6): which instruction set and word layout the core has. -/
inductive Cfg
  /-- The extended set of nine mnemonics, the default (spec decision D2). -/
  | ext
  /-- The base set `ADD, SUB, LOAD, STORE`. -/
  | base
  deriving DecidableEq, Repr

/-- The parameters of rule R6. NCELL and RIW are `RegIdx`; OPW, WORDW and LINK_ADDR are computed from the
fields. SEED and READ_SENTINEL are signed integers, as the rule gives them (`-1`), and are taken as
XLEN-bit values where they are used. -/
structure Config where
  /-- CFG. -/
  cfg : Cfg
  /-- XLEN, the width in bits of a register, a memory cell, the pc, an input and an output value
  (decision D5; log 3). -/
  xlen : Nat
  /-- MEMSIZE, the number of data memory cells: OPEN in the spec (decision D7). -/
  memSize : Nat
  /-- PROGCAP, the capacity of the program store in words: OPEN in the spec (decision D9). -/
  progCap : Nat
  /-- SEED, the reset values of `R0` to `R{NREG-1}`; NREG is its length. -/
  seed : List Int
  /-- READ_SENTINEL, what an out-of-range read returns (decision D12). -/
  readSentinel : Int
  /-- LOAD_REWINDS_PC, whether a load sets the pc to 0 (decision D11). -/
  loadRewindsPc : Bool
  /-- ASM_SENTINEL, the line that ends assembler input: OPEN with no default (decision D20); `none`
  is a configuration in which no line but a blank one does (log 11). -/
  asmSentinel : Option (List Char)
  deriving DecidableEq, Repr

/-- NREG (rule R6): the registers that have a name for the assembler and a seed. -/
def Config.nreg (c : Config) : Nat := c.seed.length

/-- The default value of every parameter (rule R6). MEMSIZE and PROGCAP take the defaults the spec
gives the open parameters (log 4). -/
def Config.standard : Config where
  cfg := .ext
  xlen := 32
  memSize := 256
  progCap := 256
  seed := [0, 4, 9, 10]
  readSentinel := -1
  loadRewindsPc := false
  asmSentinel := none

end Sys2Proof
end

