-- ==== Sys2Proof/Syntax.lean ====
section
/-! DEFINITION. The decoded instruction and the opcode tag. -/

namespace Sys2Proof

/-- The ten decoded opcode tags (rules R53, R54): nine mnemonics and UNKNOWN. -/
inductive Opcode
  | add | sub | load | store | input | output | jump | call | ret | unknown
  deriving DecidableEq, Repr

/-- A decoded instruction `{opcode, destRegIndex, srcRegIndex}` (rule R54). Every constructor holds
both register fields, also those its instruction ignores (rule R56), because the trace event reports
them as they stand (rules R57, R78). The table's rows of one mnemonic (its EXT and BASE rows, and the
rows of the unassigned codes) decode to one tag, so they share a constructor (log 1). -/
inductive Instr
  /-- `x[d] <- x[d] + x[s]` (rule R87). -/
  | add (d s : RegIdx)
  /-- `x[d] <- x[d] - x[s]` (rule R88). -/
  | sub (d s : RegIdx)
  /-- `x[d] <- mem[x[s]]` (rule R95). -/
  | load (d s : RegIdx)
  /-- `mem[x[s]] <- x[d]` (rule R97). -/
  | store (d s : RegIdx)
  /-- `x[d] <- In()` (rule R105). -/
  | input (d s : RegIdx)
  /-- `Out(x[d])` (rule R107). -/
  | output (d s : RegIdx)
  /-- `pc <- x[s]` (rule R113). -/
  | jump (d s : RegIdx)
  /-- `mem[LINK_ADDR] <- pc_next; pc <- x[s]` (rule R116). -/
  | call (d s : RegIdx)
  /-- `pc <- mem[LINK_ADDR]` (rule R118). -/
  | ret (d s : RegIdx)
  /-- No operation (rule R125). -/
  | unknown (d s : RegIdx)
  deriving DecidableEq, Repr

end Sys2Proof
end

