-- ==== Sys2Proof/WellFormed.lean ====
section
/-! DEFINITION. The checks: an instruction exists in a configuration, a program word has the
configured width, and a configuration satisfies the constraints of rule R6. -/

namespace Sys2Proof

/-- The instruction exists in the configuration: INPUT, OUTPUT, JUMP, CALL and RET do not exist when
CFG = BASE (rules R53, R109, R121). -/
def Instr.wellFormed : Cfg → Instr → Bool
  | _, .add _ _ => true
  | _, .sub _ _ => true
  | _, .load _ _ => true
  | _, .store _ _ => true
  | c, .input _ _ => c == .ext
  | c, .output _ _ => c == .ext
  | c, .jump _ _ => c == .ext
  | c, .call _ _ => c == .ext
  | c, .ret _ _ => c == .ext
  | _, .unknown _ _ => true

/-- The word has WORDW bits (rules R51, R52, R60): a word of the base layout is below `2^9`. -/
def ProgWord.fits : Cfg → ProgWord → Bool
  | .ext, _ => true
  | .base, w => w.toNat < 512

/-- The constraints of rule R6: `1 <= MEMSIZE <= 2^(XLEN-1)`, `PROGCAP <= 2^(XLEN-1) - 1`, no more
seeded registers than register cells, and at least one bit in a word, without which the signed reading
of rule R7 does not exist (log 3). -/
def Config.valid (c : Config) : Bool :=
  decide (1 ≤ c.xlen) && decide (1 ≤ c.memSize) && decide (c.memSize ≤ 2 ^ (c.xlen - 1)) &&
    decide (c.progCap ≤ 2 ^ (c.xlen - 1) - 1) && decide (c.nreg ≤ 8)

end Sys2Proof
end

