-- ==== Sys2Proof/Decode.lean ====
section
/-! DEFINITION. The one instruction format, the opcode map, the decoder, the encoder after it, and
the opcode table as data. -/

namespace Sys2Proof

/-- OPW (rules R6, R51, R52): the width of the opcode field. -/
def opw : Cfg → Nat
  | .ext => 4
  | .base => 3

/-- WORDW = OPW + 2*RIW (rule R6): the width of a program word. -/
def wordw (c : Cfg) : Nat := opw c + 2 * 3

/-- The opcode field `w[WORDW-1:6]` (rules R50, R54). -/
def opcodeField (c : Cfg) (w : ProgWord) : Nat := (w.extractLsb' 6 (opw c)).toNat

/-- The destReg field `w[5:3]` (rule R50), an unsigned index (rule R56). -/
def destField (w : ProgWord) : RegIdx := (w.extractLsb' 3 3).toFin

/-- The srcReg field `w[2:0]` (rule R50). -/
def srcField (w : ProgWord) : RegIdx := (w.extractLsb' 0 3).toFin

/-- The opcode map of rule R53: every unassigned code is UNKNOWN. -/
def opcodeOf : Cfg → Nat → Opcode
  | .ext, 0 => .add
  | .ext, 1 => .sub
  | .ext, 2 => .load
  | .ext, 3 => .store
  | .ext, 4 => .input
  | .ext, 5 => .output
  | .ext, 6 => .jump
  | .ext, 7 => .call
  | .ext, 8 => .ret
  | .ext, _ => .unknown
  | .base, 0 => .add
  | .base, 1 => .sub
  | .base, 2 => .load
  | .base, 3 => .store
  | .base, _ => .unknown

/-- The instruction with an opcode tag and its two register fields. -/
def Opcode.instr : Opcode → RegIdx → RegIdx → Instr
  | .add => .add
  | .sub => .sub
  | .load => .load
  | .store => .store
  | .input => .input
  | .output => .output
  | .jump => .jump
  | .call => .call
  | .ret => .ret
  | .unknown => .unknown

/-- The decoder (rule R54): total, and it refuses no word (rule R57). -/
def decode (c : Cfg) (w : ProgWord) : Instr :=
  (opcodeOf c (opcodeField c w)).instr (destField w) (srcField w)

/-- The tag of an instruction, as the trace event reports it (rule R78). -/
def Instr.opcode : Instr → Opcode
  | .add _ _ => .add
  | .sub _ _ => .sub
  | .load _ _ => .load
  | .store _ _ => .store
  | .input _ _ => .input
  | .output _ _ => .output
  | .jump _ _ => .jump
  | .call _ _ => .call
  | .ret _ _ => .ret
  | .unknown _ _ => .unknown

/-- The destReg field of an instruction. -/
def Instr.dest : Instr → RegIdx
  | .add d _ | .sub d _ | .load d _ | .store d _ | .input d _ => d
  | .output d _ | .jump d _ | .call d _ | .ret d _ | .unknown d _ => d

/-- The srcReg field of an instruction. -/
def Instr.src : Instr → RegIdx
  | .add _ s | .sub _ s | .load _ s | .store _ s | .input _ s => s
  | .output _ s | .jump _ s | .call _ s | .ret _ s | .unknown _ s => s

/-- The code of a tag (rules R53, R58). UNKNOWN has the canonical code, the first unassigned one; a
mnemonic that the configuration does not have is unrecognized in it and maps to UNKNOWN (rule R63). -/
def codeOf : Cfg → Opcode → Nat
  | _, .add => 0
  | _, .sub => 1
  | _, .load => 2
  | _, .store => 3
  | .ext, .input => 4
  | .ext, .output => 5
  | .ext, .jump => 6
  | .ext, .call => 7
  | .ext, .ret => 8
  | .ext, .unknown => 9
  | .base, _ => 4

/-- The packing `(code << 6) | (d << 3) | s` (rule R58). -/
def packWord (code : Nat) (d s : RegIdx) : ProgWord :=
  BitVec.ofNat 10 code <<< 6 ||| BitVec.ofNat 10 d.val <<< 3 ||| BitVec.ofNat 10 s.val

/-- The encoder (rule R58): the one word of a well-formed instruction. -/
def encode (c : Cfg) (i : Instr) : ProgWord := packWord (codeOf c i.opcode) i.dest i.src

/-- A row of the opcode table: a word `w` of the configuration is the row's instruction when
`w & mask = pattern` (30_encoding.md, opening paragraph). -/
structure TableRow where
  cfg : Cfg
  opcode : Opcode
  pattern : ProgWord
  mask : ProgWord
  deriving DecidableEq, Repr

/-- The 12 rows of CFG = EXT. -/
def extRows : List TableRow :=
  [⟨.ext, .add, 0x000, 0x3C0⟩, ⟨.ext, .sub, 0x040, 0x3C0⟩, ⟨.ext, .load, 0x080, 0x3C0⟩,
    ⟨.ext, .store, 0x0C0, 0x3C0⟩, ⟨.ext, .input, 0x100, 0x3C0⟩, ⟨.ext, .output, 0x140, 0x3C0⟩] ++
  [⟨.ext, .jump, 0x180, 0x3C0⟩, ⟨.ext, .call, 0x1C0, 0x3C0⟩, ⟨.ext, .ret, 0x200, 0x3C0⟩,
    ⟨.ext, .unknown, 0x240, 0x3C0⟩, ⟨.ext, .unknown, 0x280, 0x380⟩, ⟨.ext, .unknown, 0x300, 0x300⟩]

/-- The 5 rows of CFG = BASE. -/
def baseRows : List TableRow :=
  [⟨.base, .add, 0x000, 0x1C0⟩, ⟨.base, .sub, 0x040, 0x1C0⟩, ⟨.base, .load, 0x080, 0x1C0⟩,
    ⟨.base, .store, 0x0C0, 0x1C0⟩, ⟨.base, .unknown, 0x100, 0x100⟩]

/-- The rows of `spec/opcode_table.json` for a configuration. -/
def tableRows : Cfg → List TableRow
  | .ext => extRows
  | .base => baseRows

/-- The row covers the word. -/
def TableRow.covers (r : TableRow) (w : ProgWord) : Bool := w &&& r.mask == r.pattern

/-- The instruction the decoder of the default configuration (CFG = EXT) reads from a table word. The
program store is not byte addressed, so the word is the instruction as it stands. A number that needs
more than WORDW bits is no word of the core (rule R60, spec decision D29) and gives `none`; `nbits`
counts whole bytes and is not needed (logs 2, 12). -/
def decodeTableWord (_nbits w : Nat) : Option Instr :=
  if w < 2 ^ wordw Config.standard.cfg then
    some (decode Config.standard.cfg (BitVec.ofNat 10 w))
  else none

end Sys2Proof
end

