-- ==== Sys2Proof/Machine/State.lean ====
section
/-! DEFINITION. The state of the core as plain data, the ways a step or a port can stop, and the
state after reset. -/

namespace Sys2Proof.Machine

/-- Data memory (rule R30) with cells of `xlen` bits: the listed cells as (index, value) pairs, in the
canonical form of `Memory.wf`. The cell is a whole word because the machine has no smaller unit (rules
R32, R35; log 10). -/
abbrev Memory (xlen : Nat) := List (Nat × Word xlen)

/-- The register file: NCELL = 8 cells of `xlen` bits (rule R11). -/
abbrev RegFile (xlen : Nat) := Vector (Word xlen) 8

/-- What the inspection port shows and what a trace event's summary holds: `pc`, `x[0..7]` and all of
`mem` (rules R27, R78). -/
structure Snapshot (xlen : Nat) where
  pc : Word xlen
  regs : RegFile xlen
  mem : Memory xlen
  deriving DecidableEq, Repr

/-- The `kind` of a trace event, with the `faultAddress` field that is present only in a MEMFAULT event
(rules R78, R132). -/
inductive TraceKind (xlen : Nat)
  /-- STEP: a step without a memory fault. -/
  | step
  /-- MEMFAULT: a LOAD or STORE whose address was out of range. -/
  | memFault (faultAddress : Word xlen)
  deriving DecidableEq, Repr

/-- A Trace Event (rule R78). -/
structure TraceEvent (xlen : Nat) where
  kind : TraceKind xlen
  /-- The pc value the word was fetched from, before the advance. -/
  instructionIndex : Word xlen
  opcode : Opcode
  destReg : RegIdx
  srcReg : RegIdx
  /-- `resultingState-summary`: the state after the step. -/
  summary : Snapshot xlen
  deriving DecidableEq, Repr

/-- Everything of a core of configuration `c` that a step can change: the core's four pieces of state
(rule R10) and the three streams of the environment (rule R24). -/
structure CoreState (c : Config) where
  /-- Program counter: index of the next word to fetch, read as unsigned (rule R15). -/
  pc : Word c.xlen
  /-- Register file (rule R11). -/
  regs : RegFile c.xlen
  /-- Data memory (rule R30). -/
  mem : Memory c.xlen
  /-- Program store (rule R22); PROGLEN is its length. -/
  prog : List ProgWord
  /-- Values waiting at the input port, oldest first (rule R106). -/
  input : List (Word c.xlen)
  /-- Values sent to the output port, oldest first (rule R108). -/
  output : List (Word c.xlen)
  /-- Trace events, oldest first (rule R78). -/
  trace : List (TraceEvent c.xlen)
  deriving DecidableEq, Repr

/-- The machine: its configuration, which nothing changes (rule R6; log 4), and the state of a core of
that configuration. -/
structure State where
  config : Config
  core : CoreState config
  deriving DecidableEq, Repr

/-- The faults that stop the machine: there are none. A MemoryFault is a label on a trace event and
stops nothing (rules R130, R133), and no step can fault, trap or abort (rule R81). -/
inductive Fault
  deriving DecidableEq, Repr

/-- The refusals. No meaning of an instruction raises any of them. -/
inductive Refusal
  /-- Raised by an arm of `exec` for an instruction without a meaning; no arm does. Safe: the run
  stops. -/
  | notModelled (mnemonic : String)
  /-- Raised by the load port while a run is in progress (rule R152, U13). Safe: nothing is loaded. -/
  | loadDuringRun
  /-- Raised by the load port for more than PROGCAP words (U16). Safe: nothing is loaded. -/
  | programTooLong
  /-- Raised by construction for parameters outside the constraints of rule R6 (U16). Safe: no core is
  made. -/
  | badConfiguration
  deriving DecidableEq, Repr

/-- The reset value of a register: its seed as an XLEN-bit value, or 0 for a cell that has none (rule
R25). -/
def seedOf (c : Config) (i : Nat) : Word c.xlen := BitVec.ofInt c.xlen ((c.seed[i]?).getD 0)

/-- The core state right after reset in a configuration (rules R25, R150): the seed in the register
file, every cell 0, `pc = 0`, no program. The streams are empty (log 5). -/
def CoreState.initial (c : Config) : CoreState c where
  pc := 0
  regs := #v[seedOf c 0, seedOf c 1, seedOf c 2, seedOf c 3,
    seedOf c 4, seedOf c 5, seedOf c 6, seedOf c 7]
  mem := []
  prog := []
  input := []
  output := []
  trace := []

/-- The machine right after reset in a configuration. -/
def State.resetWith (c : Config) : State := ⟨c, CoreState.initial c⟩

/-- The machine right after reset in the default configuration (rule R25). -/
def State.reset : State := State.resetWith Config.standard

end Sys2Proof.Machine
end

