-- ==== Sys2Proof/Machine/Ops.lean ====
section
/-! DEFINITION. The named operations over registers, memory and ports that every meaning is written
with (rule R8), and the completion of a step. The machine has no trap entry and no trap return (rules
R137, R138): a MemoryFault is the `TraceKind` that `faultKind` gives the step's event. -/

namespace Sys2Proof.Machine

variable {xlen : Nat} {c : Config}

/-- What an unlisted cell reads as: 0, the reset value of every cell (rules R25, R30). -/
def Memory.blank : Word xlen := 0

/-- Reads one cell: `mem[a]` (rule R8). -/
def Memory.read : Memory xlen → Nat → Word xlen
  | [], _ => Memory.blank
  | (b, v) :: m, a => if a = b then v else Memory.read m a

/-- Puts a cell in front of cells above it, unless it holds what an unlisted cell reads as. -/
def Memory.cons (a : Nat) (v : Word xlen) (m : Memory xlen) : Memory xlen :=
  if v = Memory.blank then m else (a, v) :: m

/-- Writes one cell and keeps the canonical form. -/
def Memory.write : Memory xlen → Nat → Word xlen → Memory xlen
  | [], a, v => Memory.cons a v []
  | (b, u) :: m, a, v =>
    if a < b then Memory.cons a v ((b, u) :: m)
    else if a = b then Memory.cons a v m
    else (b, u) :: Memory.write m a v

/-- The canonical form: indices strictly rising, and no entry equal to what an unlisted cell reads
as. -/
def Memory.wf (m : Memory xlen) : Bool :=
  decide (m.Pairwise fun p q => p.1 < q.1) && m.all fun p => p.2 != Memory.blank

/-- Every listed cell exists: its index is below MEMSIZE (rule R30). -/
def Memory.within (size : Nat) (m : Memory xlen) : Bool := m.all fun p => decide (p.1 < size)

/-- The memory dump: all cells in address order (rule R27). -/
def Memory.dump (size : Nat) (m : Memory xlen) : List (Word xlen) := (List.range size).map m.read

/-- LINK_ADDR = MEMSIZE - 1 (rules R6, R39; log 6), as a data address. -/
def linkAddr (c : Config) : Word c.xlen := BitVec.ofNat c.xlen (c.memSize - 1)

/-- READ_SENTINEL as an XLEN-bit value: `-1` is `2^XLEN - 1` as bits (rule R6). -/
def sentinel (c : Config) : Word c.xlen := BitVec.ofInt c.xlen c.readSentinel

/-- Reads a register cell: `x[i]`, with no side effect (rule R11). -/
def CoreState.reg (s : CoreState c) (i : RegIdx) : Word c.xlen := s.regs.get i

/-- Writes a register cell: `x[i] <- v`; no cell is hardwired (rules R11, R12). -/
def CoreState.setReg (s : CoreState c) (i : RegIdx) (v : Word c.xlen) : CoreState c :=
  { s with regs := s.regs.set i v }

/-- Writes the program counter: `pc <- t`. -/
def CoreState.setPc (s : CoreState c) (t : Word c.xlen) : CoreState c := { s with pc := t }

/-- The raw cell write `mem[a] <- v`, for an index known to be in range. -/
def CoreState.setCell (s : CoreState c) (a : Nat) (v : Word c.xlen) : CoreState c :=
  { s with mem := s.mem.write a v }

/-- Removes the head of the input stream, leaving `rest` (rule R105). -/
def CoreState.setInput (s : CoreState c) (rest : List (Word c.xlen)) : CoreState c :=
  { s with input := rest }

/-- `Out(v)`: appends to the output stream (rules R107, R108). -/
def CoreState.out (s : CoreState c) (v : Word c.xlen) : CoreState c :=
  { s with output := s.output ++ [v] }

/-- The advance of the pc before execute (rule R72). -/
def CoreState.advance (s : CoreState c) : CoreState c := s.setPc (s.pc + 1)

/-- The bounds test of rule R31: the address is read as signed. -/
def inRange (c : Config) (a : Word c.xlen) : Bool :=
  decide (0 ≤ a.toInt) && decide (a.toInt < (c.memSize : Int))

/-- The index of the cell an in-range address names: `signed(a)`. -/
def cellIndex (a : Word xlen) : Nat := a.toInt.toNat

/-- `MemRead(a, 1)` (rule R33): the value and whether a MemoryFault is reported. -/
def memRead (s : CoreState c) (a : Word c.xlen) : Word c.xlen × Bool :=
  if inRange c a then (s.mem.read (cellIndex a), false) else (sentinel c, true)

/-- `MemWrite(a, 1, v)` (rule R34): the state and whether a MemoryFault is reported. -/
def memWrite (s : CoreState c) (a v : Word c.xlen) : CoreState c × Bool :=
  if inRange c a then (s.setCell (cellIndex a) v, false) else (s, true)

/-- `report MemoryFault(a)` (rules R8, R130): the kind of the step's trace event. -/
def faultKind (fault : Bool) (a : Word xlen) : TraceKind xlen := if fault then .memFault a else .step

/-- What inspection shows of a state (rule R27). -/
def CoreState.snapshot (s : CoreState c) : Snapshot c.xlen := ⟨s.pc, s.regs, s.mem⟩

/-- The register dump in index order (rule R27, spec decision D25). -/
def Snapshot.registers (p : Snapshot xlen) : List (RegIdx × Word xlen) :=
  (List.finRange 8).map fun i => (i, p.regs.get i)

/-- `Trace(e)` (rules R8, R78): appends the event of instruction `i`, fetched at `index`, whose summary
is the state `s` after the step's writes. -/
def CoreState.emit (s : CoreState c) (index : Word c.xlen) (i : Instr) (k : TraceKind c.xlen) :
    CoreState c :=
  { s with trace := s.trace ++ [⟨k, index, i.opcode, i.dest, i.src, s.snapshot⟩] }

/-- The end of a step (rule R70, phase 5): from the state before the fetch and the core after the
instruction's writes, the next state with the step's one event, in the same configuration. -/
def complete (i : Instr) (s : State) (k : TraceKind s.config.xlen) (after : CoreState s.config) :
    Host.Outcome State Fault Refusal :=
  .next ⟨s.config, after.emit s.core.pc i k⟩

end Sys2Proof.Machine
end

