-- ==== Sys2Proof/Machine/Operands.lean ====
section
/-! DEFINITION. The operand forms: the two register operands, read before the instruction writes
anything. There are no immediates, displacements or other addressing modes (rules R56, R96). -/

namespace Sys2Proof.Machine

variable {c : Config}

/-- `op1 = x[d]`, the pre-instruction value (rule R74). -/
def operand1 (d : RegIdx) (s : CoreState c) : Word c.xlen := s.reg d

/-- `op2 = x[s]`, the pre-instruction value (rule R74). -/
def operand2 (r : RegIdx) (s : CoreState c) : Word c.xlen := s.reg r

/-- The effective address of LOAD and STORE: register indirect (rule R96). -/
def effectiveAddress (r : RegIdx) (s : CoreState c) : Word c.xlen := operand2 r s

/-- The target of JUMP and CALL: all XLEN bits of the register, absolute (rules R113, R114). -/
def jumpTarget (r : RegIdx) (s : CoreState c) : Word c.xlen := operand2 r s

end Sys2Proof.Machine
end

