-- ==== Sys2Proof/Machine/Arith.lean ====
section
/-! DEFINITION. The ALU and the arithmetic instructions ADD and SUB (41_arith.md). -/

namespace Sys2Proof.Machine

/-- `ALU(op, a, b)` (rule R85): total on every tag; no carry, overflow or flag output. The 0 for INPUT,
OUTPUT, JUMP, CALL and RET is the spec's own decision D19 (log 15), and nothing uses it (rule R86). -/
def alu {xlen : Nat} : Opcode → Word xlen → Word xlen → Word xlen
  | .add, a, b => a + b
  | .sub, a, b => a - b
  | .load, _, b => b
  | .store, a, _ => a
  | .input, _, _ => 0
  | .output, _, _ => 0
  | .jump, _, _ => 0
  | .call, _, _ => 0
  | .ret, _, _ => 0
  | .unknown, _, _ => 0

/-- ADD (rule R87): `x[d] <- (x[d] + x[s]) mod 2^XLEN`. -/
def execAdd (d r : RegIdx) (s : State) : Host.Outcome State Fault Refusal :=
  complete (.add d r) s .step
    (s.core.advance.setReg d (alu .add (operand1 d s.core) (operand2 r s.core)))

/-- SUB (rule R88): `x[d] <- (x[d] - x[s]) mod 2^XLEN`. -/
def execSub (d r : RegIdx) (s : State) : Host.Outcome State Fault Refusal :=
  complete (.sub d r) s .step
    (s.core.advance.setReg d (alu .sub (operand1 d s.core) (operand2 r s.core)))

end Sys2Proof.Machine
end

