-- ==== Sys2Proof/Machine/Control.lean ====
section
/-! DEFINITION. JUMP, CALL and RET (44_control.md). -/

namespace Sys2Proof.Machine

/-- JUMP (rule R113): `pc <- x[s]`. -/
def execJump (d r : RegIdx) (s : State) : Host.Outcome State Fault Refusal :=
  complete (.jump d r) s .step (s.core.advance.setPc (jumpTarget r s.core))

/-- CALL (rule R116): the advanced pc goes to the link cell through the ordinary bounds-checked write,
then `pc <- x[s]`. A nested CALL overwrites the cell silently (rule R117). -/
def execCall (d r : RegIdx) (s : State) : Host.Outcome State Fault Refusal :=
  complete (.call d r) s .step
    ((memWrite s.core.advance (linkAddr s.config) s.core.advance.pc).1.setPc (jumpTarget r s.core))

/-- RET (rule R118): `pc <- mem[LINK_ADDR]`; the link cell keeps its value. -/
def execRet (d r : RegIdx) (s : State) : Host.Outcome State Fault Refusal :=
  complete (.ret d r) s .step (s.core.advance.setPc (memRead s.core (linkAddr s.config)).1)

end Sys2Proof.Machine
end

