-- ==== Sys2Proof/Machine/Io.lean ====
section
/-! DEFINITION. INPUT and OUTPUT (43_io.md). -/

namespace Sys2Proof.Machine

/-- INPUT (rule R105): with a value waiting, the head of the input stream goes to `x[d]`. With none, the
core waits: the step has not happened and the state is as it was, without a trace event (rule R77; the
model answers that same state, log 7). -/
def execInput (d r : RegIdx) (s : State) : Host.Outcome State Fault Refusal :=
  match s.core.input with
  | [] => .next s
  | v :: rest => complete (.input d r) s .step ((s.core.advance.setInput rest).setReg d v)

/-- OUTPUT (rule R107): appends `x[d]` to the output stream; it never blocks (rule R108). -/
def execOutput (d r : RegIdx) (s : State) : Host.Outcome State Fault Refusal :=
  complete (.output d r) s .step (s.core.advance.out (operand1 d s.core))

end Sys2Proof.Machine
end

