-- ==== Sys2Proof/Machine/LoadStore.lean ====
section
/-! DEFINITION. LOAD and STORE (42_loadstore.md). -/

namespace Sys2Proof.Machine

/-- LOAD (rule R95): the cell at `x[s]`, or the sentinel with a MEMFAULT event, goes to `x[d]`. -/
def execLoad (d r : RegIdx) (s : State) : Host.Outcome State Fault Refusal :=
  complete (.load d r) s
    (faultKind (memRead s.core (effectiveAddress r s.core)).2 (effectiveAddress r s.core))
    (s.core.advance.setReg d (memRead s.core (effectiveAddress r s.core)).1)

/-- STORE (rule R97): `x[d]` goes to the cell at `x[s]`, or is dropped with a MEMFAULT event. -/
def execStore (d r : RegIdx) (s : State) : Host.Outcome State Fault Refusal :=
  complete (.store d r) s
    (faultKind (memWrite s.core.advance (effectiveAddress r s.core) (operand1 d s.core)).2
      (effectiveAddress r s.core))
    (memWrite s.core.advance (effectiveAddress r s.core) (operand1 d s.core)).1

end Sys2Proof.Machine
end

