-- ==== Sys2Proof/Machine/Unknown.lean ====
section
/-! DEFINITION. UNKNOWN (45_unknown.md). -/

namespace Sys2Proof.Machine

/-- UNKNOWN (rule R125): nothing but the advance and the trace event. -/
def execUnknown (d r : RegIdx) (s : State) : Host.Outcome State Fault Refusal :=
  complete (.unknown d r) s .step s.core.advance

end Sys2Proof.Machine
end

