-- ==== Sys2Proof/Machine/Dispatch.lean ====
section
/-! DEFINITION. The dispatch of rule R75: one arm per decoded opcode. -/

namespace Sys2Proof.Machine

/-- Runs a decoded instruction at the state it was fetched in (rule R70, phases 3 to 5, with the advance
of phase 1). -/
def exec (i : Instr) (s : State) : Host.Outcome State Fault Refusal :=
  match i with
  | .add d r => Sys2Proof.Machine.execAdd d r s
  | .sub d r => Sys2Proof.Machine.execSub d r s
  | .load d r => Sys2Proof.Machine.execLoad d r s
  | .store d r => Sys2Proof.Machine.execStore d r s
  | .input d r => Sys2Proof.Machine.execInput d r s
  | .output d r => Sys2Proof.Machine.execOutput d r s
  | .jump d r => Sys2Proof.Machine.execJump d r s
  | .call d r => Sys2Proof.Machine.execCall d r s
  | .ret d r => Sys2Proof.Machine.execRet d r s
  | .unknown d r => Sys2Proof.Machine.execUnknown d r s

end Sys2Proof.Machine
end

