-- ==== Sys2Proof/Machine/Flags.lean ====
section
/-! DEFINITION. The core has no flags, condition codes or predicates (rule R18). The one condition
besides the bounds test that the hardware computes from its state is the halt test, which stands
here. -/

namespace Sys2Proof.Machine

variable {c : Config}

/-- PROGLEN (rule R22). -/
def CoreState.progLen (s : CoreState c) : Nat := s.prog.length

/-- Halted (rule R156): `unsigned(pc) >= PROGLEN`; a predicate on state, not a stored bit. -/
def CoreState.halted (s : CoreState c) : Bool := decide (s.prog.length ≤ s.pc.toNat)

end Sys2Proof.Machine
end

