-- ==== Sys2Proof/Machine/Fetch.lean ====
section
/-! DEFINITION. Fetch and decode, the two conditions in which no step is enabled, and placing a word
where the next fetch reads it. -/

namespace Sys2Proof.Machine

variable {c : Config}

/-- Fetch (rules R40, R71): `prog[pc]` when `unsigned(pc) < PROGLEN`, else nothing. -/
def CoreState.fetch (s : CoreState c) : Option ProgWord := s.prog[s.pc.toNat]?

/-- The instruction the next step runs: fetched and decoded under the fixed configuration (rule R73). -/
def CoreState.current (s : CoreState c) : Option Instr := s.fetch.map (decode c.cfg)

/-- Waiting in INPUT (rules R70, R146): not halted, the instruction at `pc` is INPUT, and the input
stream holds no value. -/
def CoreState.waiting (s : CoreState c) : Bool :=
  match s.current with
  | some (.input _ _) => s.input.isEmpty
  | _ => false

/-- A step is enabled (rule R70). -/
def CoreState.enabled (s : CoreState c) : Bool := !s.halted && !s.waiting

/-- A word as the load port of a configuration takes it: its low WORDW bits (rule R60). -/
def portWord (c : Cfg) (w : Nat) : ProgWord := (BitVec.ofNat (wordw c) w).setWidth 10

/-- The program with `w` at index `n`: the words before and after it are kept, and a program shorter
than `n` is filled up with the canonical UNKNOWN, the machine's no-operation (rule R127). -/
def placeWord (c : Cfg) (prog : List ProgWord) (n : Nat) (w : ProgWord) : List ProgWord :=
  prog.take n ++ List.replicate (n - prog.length) (encode c (.unknown 0 0)) ++
    w :: prog.drop (n + 1)

end Sys2Proof.Machine
end

