-- ==== Sys2Proof/Machine/Step.lean ====
section
/-! DEFINITION. The step of the core (40_sequencer.md rule R70). -/

namespace Sys2Proof.Machine

/-- One step. On a halted core it does nothing and emits nothing (rule R158). -/
def step (s : State) : Host.Outcome State Fault Refusal :=
  match s.core.current with
  | none => .next s
  | some i => exec i s

/-- The state with the table word `w` in the program store at the index the pc holds, so that the next
step fetches it. It stands for the host's load, the only way a program enters (rule R152; log 12). -/
def State.withFetchWord (s : State) (_nbits w : Nat) : State :=
  ⟨s.config, { s.core with
    prog := placeWord s.config.cfg s.core.prog s.core.pc.toNat (portWord s.config.cfg w) }⟩

end Sys2Proof.Machine
end

