-- ==== Sys2Proof/Machine/Assembler.lean ====
section
/-! DEFINITION. The toolchain's text syntax (30_encoding.md rules R61 to R67): lines, tokens, register
tokens, mnemonics, packing, and the spec's disassembly form. The assembler is software outside the
hardware block (rule R5); text is a list of characters. -/

namespace Sys2Proof.Machine

/-- Cuts a text at every character that satisfies `p`. -/
def cutAt (p : Char → Bool) : List Char → List (List Char)
  | [] => [[]]
  | c :: cs =>
    if p c then [] :: cutAt p cs
    else
      match cutAt p cs with
      | [] => [[c]]
      | l :: ls => (c :: l) :: ls

/-- The separators a register token may carry (rule R62). -/
def isSeparator (c : Char) : Bool := c == ',' || c == '[' || c == ']'

/-- The separators around a token are stripped before lookup (rule R62; log 11). -/
def stripToken (tok : List Char) : List Char :=
  ((tok.dropWhile isSeparator).reverse.dropWhile isSeparator).reverse

/-- The whitespace-separated tokens of a line (rule R62). -/
def tokensOf (line : List Char) : List (List Char) :=
  (cutAt Char.isWhitespace line).filter fun t => !t.isEmpty

/-- The value of a string of decimal digits. -/
def decimal (digits : List Char) : Nat :=
  digits.foldl (fun n c => 10 * n + (c.toNat - '0'.toNat)) 0

/-- A register token (rule R62): `R<digits>` naming an existing register gives its index, and every
malformed token gives index 0. -/
def registerIndex (nreg : Nat) (tok : List Char) : RegIdx :=
  match stripToken tok with
  | 'R' :: digits =>
    if !digits.isEmpty && digits.all Char.isDigit && decide (decimal digits < nreg) then
      Fin.ofNat 8 (decimal digits)
    else 0
  | _ => 0

/-- The register index of a token that may be absent: index 0 then (rule R62). -/
def optionalIndex (nreg : Nat) : Option (List Char) → RegIdx
  | some tok => registerIndex nreg tok
  | none => 0

/-- The text of a tag (rules R53, R67). -/
def Opcode.text : Opcode → List Char
  | .add => ['A', 'D', 'D']
  | .sub => ['S', 'U', 'B']
  | .load => ['L', 'O', 'A', 'D']
  | .store => ['S', 'T', 'O', 'R', 'E']
  | .input => ['I', 'N', 'P', 'U', 'T']
  | .output => ['O', 'U', 'T', 'P', 'U', 'T']
  | .jump => ['J', 'U', 'M', 'P']
  | .call => ['C', 'A', 'L', 'L']
  | .ret => ['R', 'E', 'T']
  | .unknown => ['U', 'N', 'K', 'N', 'O', 'W', 'N']

/-- The closed set of mnemonics of a configuration (rules R2, R53, R63). -/
def mnemonicSet : Cfg → List Opcode
  | .ext => [.add, .sub, .load, .store, .input, .output, .jump, .call, .ret]
  | .base => [.add, .sub, .load, .store]

/-- The mnemonic lookup: exact and case-sensitive (rule R63). -/
def lookupMnemonic (c : Cfg) (tok : List Char) : Option Opcode :=
  (mnemonicSet c).find? fun op => Opcode.text op == tok

/-- Assembles one line (rules R62 to R64): the tag is `none` for an unrecognized mnemonic, which the
assembler logs as a translation failure. -/
def parseLine (c : Config) (line : List Char) : Option Opcode × RegIdx × RegIdx :=
  let toks := tokensOf line
  (lookupMnemonic c.cfg (toks.headD []), optionalIndex c.nreg toks[1]?,
    optionalIndex c.nreg toks[2]?)

/-- The word of a line: an unrecognized mnemonic gives UNKNOWN with zero registers (rules R63, R64). -/
def assembleLine (c : Config) (line : List Char) : ProgWord :=
  match parseLine c line with
  | (some op, d, s) => encode c.cfg (op.instr d s)
  | (none, _, _) => encode c.cfg (.unknown 0 0)

/-- A line that ends the input: a blank line or the sentinel line (rule R61). -/
def endsInput (c : Config) (line : List Char) : Bool :=
  (tokensOf line).isEmpty || c.asmSentinel == some line

/-- The instruction lines of a source text: those before the first that ends the input (rule R61). -/
def sourceLines (c : Config) (text : List Char) : List (List Char) :=
  (cutAt (fun ch => ch == '\n') text).takeWhile fun l => !endsInput c l

/-- `assemble(sourceText) -> Program`: one word a line, in line order (rules R64, R65). -/
def assemble (c : Config) (text : List Char) : List ProgWord :=
  (sourceLines c text).map (assembleLine c)

/-- The lines whose translation failed (rules R63, R126), as line indices from 0. -/
def translationFailures (c : Config) (text : List Char) : List Nat :=
  ((sourceLines c text).zipIdx.filter fun p => (parseLine c p.1).1.isNone).map fun p => p.2

/-- A register name `R0` to `R7` (rule R12). -/
def registerText (i : RegIdx) : List Char := ['R', Char.ofNat ('0'.toNat + i.val)]

/-- The disassembly form `MNEMONIC Rd Rs` (rule R67). -/
def disassemble (c : Cfg) (w : ProgWord) : List Char :=
  Opcode.text (decode c w).opcode ++ ' ' :: registerText (decode c w).dest ++
    ' ' :: registerText (decode c w).src

end Sys2Proof.Machine
end

