-- ==== Sys2Proof/Machine/HostPort.lean ====
section
/-! DEFINITION. The ports of rule R160 as the host and the environment use them: construction, reset,
load, supply of input values, run, step, abort and inspection. The host has no other power (rule
R161). -/

namespace Sys2Proof.Machine

variable {c : Config}

/-- The reset input (rules R150, R151): every piece of core state to its reset value; the configuration
and the environment's streams stay. -/
def CoreState.applyReset (s : CoreState c) : CoreState c :=
  { CoreState.initial c with input := s.input, output := s.output, trace := s.trace }

/-- `loadProgram(words)` (rules R26, R152): replaces the held program and resets nothing else, unless
LOAD_REWINDS_PC is configured. The words have WORDW bits by type (rule R60). -/
def CoreState.loadProgram (s : CoreState c) (words : List (BitVec (wordw c.cfg))) : CoreState c :=
  { s with
    prog := words.map fun w => w.setWidth 10
    pc := if c.loadRewindsPc then 0 else s.pc }

/-- The environment offers one more input value (rule R106); it waits behind those before it. -/
def CoreState.supply (s : CoreState c) (v : Word c.xlen) : CoreState c :=
  { s with input := s.input ++ [v] }

/-- Rule R80: steps until the core is halted, for at most `fuel` steps (U17). A step of a core that waits
in INPUT leaves the state as it is (log 7). -/
def run : Nat → State → Host.Outcome State Fault Refusal
  | 0, s => .next s
  | fuel + 1, s =>
    if s.core.halted then .next s
    else
      match step s with
      | .next t => run fuel t
      | .fault f => .fault f
      | .refused r => .refused r

/-- How many of the next `n` steps are fetch cycles: steps that are enabled (rule R79). -/
def fetchCycles : Nat → State → Nat
  | 0, _ => 0
  | n + 1, s =>
    if s.core.enabled then
      match step s with
      | .next t => fetchCycles n t + 1
      | .fault _ => 0
      | .refused _ => 0
    else 0

/-- A machine with the host's run control beside it. `running` is no state of the core (rule R10): it
says that a `run` is in progress, which the load port must know (rule R152; log 9). -/
structure Session where
  machine : State
  running : Bool
  deriving DecidableEq, Repr

/-- The core of the session's machine. -/
abbrev Session.core (h : Session) : CoreState h.machine.config := h.machine.core

/-- The session with another state of the same core. -/
def Session.withCore (h : Session) (s : CoreState h.machine.config) : Session :=
  { h with machine := ⟨h.machine.config, s⟩ }

/-- Construction (rules R6, R150): refused for parameters outside their constraints (U16). -/
def Session.construct (c : Config) : Host.Outcome Session Fault Refusal :=
  if c.valid then .next ⟨State.resetWith c, false⟩ else .refused .badConfiguration

/-- The `reset` port, usable between steps (rule R160). The core is halted after it, so a run in
progress is over. -/
def Session.reset (h : Session) : Session := { h.withCore h.core.applyReset with running := false }

/-- The `load` port (rule R152): refused while a run is in progress, and for more than PROGCAP words
(U16). -/
def Session.load (h : Session) (words : List (BitVec (wordw h.machine.config.cfg))) :
    Host.Outcome Session Fault Refusal :=
  if h.running then .refused .loadDuringRun
  else if h.machine.config.progCap < words.length then .refused .programTooLong
  else .next (h.withCore (h.core.loadProgram words))

/-- The `run` port: starts a run, which is over at once on a halted core (rules R80, R158). -/
def Session.startRun (h : Session) : Session := { h with running := !h.core.halted }

/-- One step, asked for by the host or by the run in progress (rule R158); a run is over when the core is
halted (rule R156). -/
def Session.step (h : Session) : Host.Outcome Session Fault Refusal :=
  match Sys2Proof.Machine.step h.machine with
  | .next t => .next ⟨t, h.running && !t.core.halted⟩
  | .fault f => .fault f
  | .refused r => .refused r

/-- Abort between steps, also while the core waits in INPUT (rule R159): the core keeps its state. -/
def Session.abort (h : Session) : Session := { h with running := false }

/-- The `in` port: a value may be supplied at any time (rule R161). -/
def Session.supply (h : Session) (v : Word h.machine.config.xlen) : Session :=
  h.withCore (h.core.supply v)

/-- The `halted` port (rule R160). -/
def Session.halted (h : Session) : Bool := h.core.halted

/-- The `inspect` port (rule R27): read-only. -/
def Session.inspect (h : Session) : Snapshot h.machine.config.xlen := h.core.snapshot

end Sys2Proof.Machine
end

