-- ==== Sys2Proof/Safety.lean ====
section
/-! DEFINITION. What claims are stated with: the invariant of every state a core can be in, what a step
keeps, and the absence of a MemoryFault in a run. -/

namespace Sys2Proof.Machine

variable {c : Config}

/-- The invariant: the configuration satisfies rule R6, memory is in canonical form and lists only
existing cells (rule R30), the program is within PROGCAP (rule R6) and its words have WORDW bits (rule
R60). Every value has XLEN bits by type. -/
def CoreState.inv (s : CoreState c) : Bool :=
  c.valid && s.mem.wf && s.mem.within c.memSize &&
    decide (s.prog.length ≤ c.progCap) && s.prog.all (ProgWord.fits c.cfg)

/-- Every register but `d` reads as before. -/
def CoreState.sameRegsBut (d : RegIdx) (s t : CoreState c) : Prop := ∀ i, i ≠ d → t.reg i = s.reg i

/-- Every register reads as before. -/
def CoreState.sameRegs (s t : CoreState c) : Prop := ∀ i, t.reg i = s.reg i

/-- Every memory cell reads as before. -/
def CoreState.sameMem (s t : CoreState c) : Prop := ∀ a, t.mem.read a = s.mem.read a

/-- Every memory cell but the one at index `n` reads as before. -/
def CoreState.sameMemBut (n : Nat) (s t : CoreState c) : Prop :=
  ∀ a, a ≠ n → t.mem.read a = s.mem.read a

/-- The program store is as before. -/
def CoreState.sameProgram (s t : CoreState c) : Prop := t.prog = s.prog

/-- The input and output streams are as before. -/
def CoreState.samePorts (s t : CoreState c) : Prop := t.input = s.input ∧ t.output = s.output

/-- The step from `s` to `t` appended exactly one event: instruction `i`, the index it was fetched from,
the kind `k`, and the state `t` as its summary (rule R78). -/
def CoreState.traced (s t : CoreState c) (i : Instr) (k : TraceKind c.xlen) : Prop :=
  t.trace = s.trace ++ [⟨k, s.pc, i.opcode, i.dest, i.src, ⟨t.pc, t.regs, t.mem⟩⟩]

/-- The instruction stores to the cell `n`: STORE and CALL are the only two that store (rule R30). -/
def CoreState.storesAt (s : CoreState c) (i : Instr) (n : Nat) : Prop :=
  (∃ d r, i = .store d r ∧ inRange c (effectiveAddress r s) = true ∧
    n = cellIndex (effectiveAddress r s)) ∨
  (∃ d r, i = .call d r ∧ n = c.memSize - 1)

/-- No MemoryFault happened, stated over the trace (rule R133). -/
def CoreState.noMemFault (s : CoreState c) : Bool := s.trace.all fun e => e.kind == .step

/-- None of the next `n` steps from `s` stores to the cell `a`. -/
def cellUntouched (a : Nat) : Nat → State → Prop
  | 0, _ => True
  | n + 1, s => (∀ i, s.core.current = some i → ¬ s.core.storesAt i a) ∧
      ∀ t, step s = .next t → cellUntouched a n t

end Sys2Proof.Machine
end

