-- ==== Sys2Proof/Certificates/Slice0/Obligations.lean ====
section
/-! DEFINITION. The statements for the provers. Each docstring names the rules of spec/ it comes from;
"log n" is notes/assumptions/n.md. -/

open Sys2Proof
open Sys2Proof.Machine

/-! ### Encoding -/

/-- Words written out bit by bit from the encodings of rules R51 to R53 (`opcode dest src`) decode to
the instruction they stand for. A sanity statement. -/
def Obligations.WrittenOutWordsDecode : Prop :=
  decode .ext 0b0000001010#10 = .add 1 2 ∧ decode .ext 0b0001000011#10 = .sub 0 3 ∧
  decode .ext 0b0010001000#10 = .load 1 0 ∧ decode .ext 0b0011010001#10 = .store 2 1 ∧
  decode .ext 0b0100101011#10 = .input 5 3 ∧ decode .ext 0b0101010000#10 = .output 2 0 ∧
  decode .ext 0b0110010000#10 = .jump 2 0 ∧ decode .ext 0b0111000001#10 = .call 0 1 ∧
  decode .ext 0b1000111111#10 = .ret 7 7 ∧ decode .ext 0b1111111111#10 = .unknown 7 7 ∧
  decode .base 0b0011010001#10 = .store 2 1 ∧ decode .base 0b0111000001#10 = .unknown 0 1

/-- Rule R54: the decoder as arithmetic on the number of the word. The opcode list of the configuration is
indexed by the bits above bit 5, an index past its end gives UNKNOWN, and the register fields are the
two groups of three bits below. -/
def Obligations.DecoderReadsThreeFields : Prop :=
  ∀ (c : Cfg) (w : ProgWord), ProgWord.fits c w = true →
    (decode c w).opcode =
      ((match c with
        | .ext => [Opcode.add, .sub, .load, .store, .input, .output, .jump, .call, .ret]
        | .base => [Opcode.add, .sub, .load, .store])[w.toNat / 64]?).getD .unknown ∧
    (decode c w).dest.val = w.toNat / 8 % 8 ∧ (decode c w).src.val = w.toNat % 8

/-- Rule R58: encode packs the three fields, decode inverts it on every well-formed instruction, and
encode inverts decode on exactly the words whose code is assigned or canonical. -/
def Obligations.EncodeAndDecodeAgree : Prop :=
  (∀ (c : Cfg) (i : Instr), i.wellFormed c = true →
    (encode c i).toNat = codeOf c i.opcode * 64 + i.dest.val * 8 + i.src.val ∧
    decode c (encode c i) = i) ∧
  ∀ (c : Cfg) (w : ProgWord), ProgWord.fits c w = true →
    (encode c (decode c w) = w ↔ w.toNat / 64 ≤ codeOf c .unknown)

/-- 30_encoding.md, opening paragraph: every word of a configuration matches exactly one row of that
configuration's opcode table, and the decoder gives that row's instruction. -/
def Obligations.EveryWordMatchesOneTableRow : Prop :=
  ∀ (c : Cfg) (w : ProgWord), ProgWord.fits c w = true →
    ∃ row, (tableRows c).filter (fun r => r.covers w) = [row] ∧ row.cfg = c ∧
      row.opcode = (decode c w).opcode

/-- Rule R57: there is no illegal encoding. Every word decodes to an instruction of its configuration,
and the step that fetches it answers a next state (for an INPUT that waits the model's choice, log 7),
with the one event of the decoded instruction unless it waits. -/
def Obligations.NoWordIsIllegal : Prop :=
  (∀ (c : Cfg) (w : ProgWord), (decode c w).wellFormed c = true) ∧
  ∀ (c : Config) (s : CoreState c) (w : ProgWord), s.prog[s.pc.toNat]? = some w →
    ∃ t : CoreState c, step ⟨c, s⟩ = .next ⟨c, t⟩ ∧
      (s.waiting = false → s.traced t (decode c.cfg w) .step ∨
        s.traced t (decode c.cfg w) (.memFault (s.reg (decode c.cfg w).src)))

/-- Rule R59: a word of the 8-bit layout, its three fields put together and zero-extended, decodes in both
configurations to that mnemonic and those registers, whose encoding there is the same integer; the base
and the extended layout agree on a code of 0 to 3; and a BASE UNKNOWN word read as an EXT word is INPUT,
OUTPUT, JUMP or CALL. -/
def Obligations.LayoutsAgreeOnBaseMnemonics : Prop :=
  (∀ (c : Cfg) (code : BitVec 2) (d r : BitVec 3) (i : Instr),
    i = ([Opcode.add, .sub, .load, .store].getD code.toNat .unknown).instr d.toFin r.toFin →
    decode c ((code ++ d ++ r).setWidth 10) = i ∧ (encode c i).toNat = (code ++ d ++ r).toNat) ∧
  (∀ w : ProgWord, w.toNat < 256 → decode .base w = decode .ext w ∧
    (decode .base w).opcode = [Opcode.add, .sub, .load, .store].getD (w.toNat / 64) .unknown ∧
    (decode .base w).dest.val = w.toNat / 8 % 8 ∧ (decode .base w).src.val = w.toNat % 8) ∧
  (∀ w : ProgWord, 256 ≤ w.toNat → w.toNat < 512 → (decode .base w).opcode = .unknown ∧
    (decode .ext w).opcode =
      [Opcode.input, .output, .jump, .call].getD (w.toNat / 64 - 4) .unknown) ∧
  ∀ (c c' : Cfg) (i : Instr), i.opcode = .add ∨ i.opcode = .sub ∨ i.opcode = .load ∨
    i.opcode = .store → encode c i = encode c' i ∧ (encode c i).toNat < 256 ∧
      (encode c (.add 1 2)).toNat = 10

/-! ### The sequencer -/

/-- Rule R70: when the program store holds a word at the pc, a step is `exec` of the decoded word at that
same state; `exec` includes the advance of the pc and the trace event. -/
def Obligations.StepRunsDecodedInstruction : Prop :=
  ∀ (s : State) (w : ProgWord), s.core.prog[s.core.pc.toNat]? = some w →
    step s = exec (decode s.config.cfg w) s

/-- The interface's placing of a word (log 12): the next step runs exactly the instruction that the
decoder reads from the table word. The model's choice, no rule of the spec. -/
def Obligations.PlacedTableWordRunsNext : Prop :=
  ∀ (s : State) (nbits w : Nat) (i : Instr), s.config.cfg = .ext →
    decodeTableWord nbits w = some i →
    (s.withFetchWord nbits w).core.pc = s.core.pc ∧
    (s.withFetchWord nbits w).core.halted = false ∧
    step (s.withFetchWord nbits w) = exec i (s.withFetchWord nbits w)

/-- Rules R156 and R158: the core is halted exactly when the pc is not below PROGLEN, and a step of a
halted core changes nothing and emits nothing. -/
def Obligations.HaltedCoreDoesNothing : Prop :=
  ∀ s : State, (s.core.halted = true ↔ s.core.prog.length ≤ s.core.pc.toNat) ∧
    (s.core.halted = true → step s = .next s ∧ ∀ n, run n s = .next s)

/-- Rule R81: no step faults, traps or aborts: it always answers a next state (that an INPUT which
waits answers the same state is the model's choice, log 7). -/
def Obligations.EveryStepAnswersNext : Prop :=
  ∀ s : State, ∃ t, step s = .next t

/-- Rules R78 and R79: an enabled step appends exactly one trace event, with the fetch index, the
decoded fields and the state after the step as its summary; a step that is not enabled changes nothing
(for an INPUT that waits the model's choice, log 7). -/
def Obligations.OneTraceEventPerFetchCycle : Prop :=
  ∀ (c : Config) (s t : CoreState c), step ⟨c, s⟩ = .next ⟨c, t⟩ →
    (s.enabled = true → ∃ w k, s.prog[s.pc.toNat]? = some w ∧
      s.traced t (decode c.cfg w) k) ∧
    (s.enabled = false → t = s)

/-- Rule R79: over any number of steps, the number of trace events emitted equals the number of fetch
cycles performed. A step of a waiting core is none (the model's choice, log 7). -/
def Obligations.TraceCountEqualsFetchCycles : Prop :=
  ∀ (n : Nat) (s t : State), Host.Core.run core n s = .next t →
    t.core.trace.length = s.core.trace.length + fetchCycles n s

/-- Rule R131: a step's event is a MEMFAULT exactly for a LOAD or STORE whose address is out of range, and
carries that address. -/
def Obligations.MemFaultOnlyOutOfRange : Prop :=
  ∀ (c : Config) (i : Instr) (s t : CoreState c) (k : TraceKind c.xlen),
    exec i ⟨c, s⟩ = .next ⟨c, t⟩ → s.traced t i k → ∀ a : Word c.xlen, k = .memFault a ↔
      (i.opcode = .load ∨ i.opcode = .store) ∧ a = s.reg i.src ∧
        ¬ (0 ≤ a.toInt ∧ a.toInt < c.memSize)

/-- Rule R16: how each instruction leaves the pc. An INPUT that waits is no step (rule R77). -/
def Obligations.PcAfterEachInstruction : Prop :=
  ∀ (c : Config) (i : Instr) (s t : CoreState c), c.valid = true → exec i ⟨c, s⟩ = .next ⟨c, t⟩ →
    ¬ (i.opcode = .input ∧ s.input = []) →
    (i.opcode = .jump ∨ i.opcode = .call → t.pc = s.reg i.src) ∧
    (i.opcode = .ret → t.pc = s.mem.read (c.memSize - 1)) ∧
    (i.opcode ≠ .jump → i.opcode ≠ .call → i.opcode ≠ .ret → t.pc = s.pc + 1)

/-- Rule R17: the advance never wraps, and a pc with a negative signed reading halts the core. -/
def Obligations.AdvanceNeverWraps : Prop :=
  ∀ (c : Config) (s : CoreState c), s.inv = true →
    (s.halted = false → (s.pc + 1).toNat = s.pc.toNat + 1 ∧
      (s.pc + 1).toNat ≤ 2 ^ (c.xlen - 1) - 1) ∧
    (s.pc.toInt < 0 → s.halted = true)

/-- Rule R80: the run loop that stops when the core is halted is the plain repetition of steps. -/
def Obligations.RunEqualsRepeatedSteps : Prop :=
  ∀ (n : Nat) (s : State), run n s = Host.Core.run core n s

/-! ### ALU and arithmetic instructions -/

/-- Rule R85: the ALU's table at every width, for every pair of operands. The zero for INPUT, OUTPUT, JUMP,
CALL and RET is no rule of the source: it is the spec's own decision D19 (log 15). -/
def Obligations.AluFunctionTable : Prop :=
  ∀ (xlen : Nat) (a b : Word xlen),
    (alu .add a b).toNat = (a.toNat + b.toNat) % 2 ^ xlen ∧
    (alu .sub a b).toNat = (a.toNat + (2 ^ xlen - b.toNat)) % 2 ^ xlen ∧
    alu .load a b = b ∧ alu .store a b = a ∧
    ∀ op, op ≠ .add → op ≠ .sub → op ≠ .load → op ≠ .store → alu op a b = 0

/-- Rule R89: addition and subtraction read as signed are the exact results reduced to the XLEN-bit signed
range at every width: the same bits as the unsigned operations, never saturated. -/
def Obligations.ArithmeticWrapsSigned : Prop :=
  ∀ (xlen : Nat) (a b : Word xlen),
    (alu .add a b).toInt = (a.toInt + b.toInt).bmod (2 ^ xlen) ∧
    (alu .sub a b).toInt = (a.toInt - b.toInt).bmod (2 ^ xlen)

/-- Rule R87 (ADD): encoding in both configurations, result, and frame. -/
def Obligations.AddResultAndFrame : Prop :=
  (∀ (c : Cfg) (d r : RegIdx),
    decode c (BitVec.ofNat 10 (0x000 ||| d.val <<< 3 ||| r.val)) = .add d r) ∧
  ∀ (c : Config) (d r : RegIdx) (s : CoreState c),
    ∃ t : CoreState c, exec (.add d r) ⟨c, s⟩ = .next ⟨c, t⟩ ∧
    (t.reg d).toNat = ((s.reg d).toNat + (s.reg r).toNat) % 2 ^ c.xlen ∧
    s.sameRegsBut d t ∧ t.pc = s.pc + 1 ∧ s.sameMem t ∧ s.sameProgram t ∧ s.samePorts t ∧
    s.traced t (.add d r) .step

/-- Rule R88 (SUB): encoding in both configurations, result, and frame. -/
def Obligations.SubResultAndFrame : Prop :=
  (∀ (c : Cfg) (d r : RegIdx),
    decode c (BitVec.ofNat 10 (0x040 ||| d.val <<< 3 ||| r.val)) = .sub d r) ∧
  ∀ (c : Config) (d r : RegIdx) (s : CoreState c),
    ∃ t : CoreState c, exec (.sub d r) ⟨c, s⟩ = .next ⟨c, t⟩ ∧
    (t.reg d).toNat = ((s.reg d).toNat + (2 ^ c.xlen - (s.reg r).toNat)) % 2 ^ c.xlen ∧
    s.sameRegsBut d t ∧ t.pc = s.pc + 1 ∧ s.sameMem t ∧ s.sameProgram t ∧ s.samePorts t ∧
    s.traced t (.sub d r) .step

/-! ### LOAD and STORE -/

/-- Rule R95 (LOAD): encoding, the loaded cell or the sentinel with a MEMFAULT event, and frame. -/
def Obligations.LoadResultAndFrame : Prop :=
  (∀ (c : Cfg) (d r : RegIdx),
    decode c (BitVec.ofNat 10 (0x080 ||| d.val <<< 3 ||| r.val)) = .load d r) ∧
  sentinel Config.standard = 0xFFFFFFFF#32 ∧
  ∀ (c : Config) (d r : RegIdx) (s : CoreState c),
    ∃ t : CoreState c, exec (.load d r) ⟨c, s⟩ = .next ⟨c, t⟩ ∧
    (0 ≤ (s.reg r).toInt ∧ (s.reg r).toInt < c.memSize →
      t.reg d = s.mem.read (s.reg r).toInt.toNat ∧ s.traced t (.load d r) .step) ∧
    (¬ (0 ≤ (s.reg r).toInt ∧ (s.reg r).toInt < c.memSize) →
      t.reg d = sentinel c ∧ s.traced t (.load d r) (.memFault (s.reg r))) ∧
    s.sameRegsBut d t ∧ t.pc = s.pc + 1 ∧ s.sameMem t ∧ s.sameProgram t ∧ s.samePorts t

/-- Rule R97 (STORE): encoding, the written cell, the dropped write with a MEMFAULT event, and frame. The
address is the meaning's own `effectiveAddress`. The premise is part of the invariant (`StepKeepsInv`). -/
def Obligations.StoreResultAndFrame : Prop :=
  (∀ (c : Cfg) (d r : RegIdx),
    decode c (BitVec.ofNat 10 (0x0C0 ||| d.val <<< 3 ||| r.val)) = .store d r) ∧
  ∀ (c : Config) (d r : RegIdx) (s : CoreState c), s.mem.wf = true →
    ∃ t : CoreState c, exec (.store d r) ⟨c, s⟩ = .next ⟨c, t⟩ ∧
    (0 ≤ (effectiveAddress r s).toInt ∧ (effectiveAddress r s).toInt < c.memSize →
      t.mem.read (cellIndex (effectiveAddress r s)) = s.reg d ∧
      s.sameMemBut (cellIndex (effectiveAddress r s)) t ∧ s.traced t (.store d r) .step) ∧
    (¬ (0 ≤ (effectiveAddress r s).toInt ∧ (effectiveAddress r s).toInt < c.memSize) →
      s.sameMem t ∧ s.traced t (.store d r) (.memFault (effectiveAddress r s))) ∧
    effectiveAddress r s = s.reg r ∧
    s.sameRegs t ∧ t.pc = s.pc + 1 ∧ s.sameProgram t ∧ s.samePorts t

/-- Rule R47: an access outside memory returns the sentinel or is dropped, leaves every cell unchanged,
and execution continues with the next instruction. -/
def Obligations.OutOfRangeAccessIsSoft : Prop :=
  ∀ (c : Config) (s : CoreState c) (a v : Word c.xlen), ¬ (0 ≤ a.toInt ∧ a.toInt < c.memSize) →
    memRead s a = (sentinel c, true) ∧ memWrite s a v = (s, true) ∧
    ∀ d r : RegIdx, s.reg r = a →
      (∃ t : CoreState c, exec (.load d r) ⟨c, s⟩ = .next ⟨c, t⟩ ∧ t.pc = s.pc + 1 ∧ s.sameMem t) ∧
      (∃ t : CoreState c, exec (.store d r) ⟨c, s⟩ = .next ⟨c, t⟩ ∧ t.pc = s.pc + 1 ∧ s.sameMem t)

/-- Rule R31: the signed bounds test and the unsigned one give the same answer, the cell named is the same,
and LINK_ADDR is always in range. -/
def Obligations.SignedAndUnsignedBoundsAgree : Prop :=
  ∀ c : Config, c.valid = true →
    (∀ a : Word c.xlen, (inRange c a = true ↔ 0 ≤ a.toInt ∧ a.toInt < c.memSize) ∧
      (inRange c a = true ↔ a.toNat < c.memSize) ∧
      (inRange c a = true → cellIndex a = a.toNat)) ∧
    inRange c (linkAddr c) = true ∧ (linkAddr c).toNat = c.memSize - 1

/-- Rule R98: a value stored at an address in range is what a later LOAD at the same address returns, when
no STORE or CALL in between wrote the cell. -/
def Obligations.StoreThenLoadReturnsValue : Prop :=
  ∀ (c : Config) (a b d e : RegIdx) (n : Nat) (s t u v : CoreState c),
    c.valid = true → s.mem.wf = true → inRange c (s.reg b) = true →
    exec (.store a b) ⟨c, s⟩ = .next ⟨c, t⟩ → cellUntouched (cellIndex (s.reg b)) n ⟨c, t⟩ →
    Host.Core.run core n ⟨c, t⟩ = .next ⟨c, u⟩ → u.reg e = s.reg b →
    exec (.load d e) ⟨c, u⟩ = .next ⟨c, v⟩ → v.reg d = s.reg a

/-! ### INPUT and OUTPUT -/

/-- Rule R105 (INPUT) when a value is available: encoding, the head value, one value consumed, and
frame. -/
def Obligations.InputTakesHeadAndFrame : Prop :=
  (∀ d r : RegIdx,
    decode .ext (BitVec.ofNat 10 (0x100 ||| d.val <<< 3 ||| r.val)) = .input d r) ∧
  ∀ (c : Config) (d r : RegIdx) (s : CoreState c) (v : Word c.xlen) (rest : List (Word c.xlen)),
    s.input = v :: rest →
    ∃ t : CoreState c, exec (.input d r) ⟨c, s⟩ = .next ⟨c, t⟩ ∧ t.reg d = v ∧ t.input = rest ∧
      s.sameRegsBut d t ∧ t.pc = s.pc + 1 ∧ s.sameMem t ∧ s.sameProgram t ∧
      t.output = s.output ∧ s.traced t (.input d r) .step

/-- Rules R77 and R105: an INPUT with no value leaves everything as before (answering that same state is
the model's choice, log 7), the core is not halted, and when a value is supplied the whole step
happens with that value. -/
def Obligations.WaitingInputResumesWithSuppliedValue : Prop :=
  ∀ (c : Config) (s : CoreState c) (d r : RegIdx), s.current = some (.input d r) → s.input = [] →
    step ⟨c, s⟩ = .next ⟨c, s⟩ ∧ s.waiting = true ∧ s.halted = false ∧
    ∀ v : Word c.xlen, ∃ t : CoreState c, step ⟨c, s.supply v⟩ = .next ⟨c, t⟩ ∧
      t.reg d = v ∧ t.input = [] ∧ t.pc = s.pc + 1 ∧ s.sameRegsBut d t ∧ s.sameMem t

/-- Rule R107 (OUTPUT): encoding, EXT only, the value appended, and frame. -/
def Obligations.OutputAppendsAndFrame : Prop :=
  (∀ d r : RegIdx,
    decode .ext (BitVec.ofNat 10 (0x140 ||| d.val <<< 3 ||| r.val)) = .output d r) ∧
  (∀ w : ProgWord, (decode .base w).opcode ≠ .output) ∧
  ∀ (c : Config) (d r : RegIdx) (s : CoreState c),
    ∃ t : CoreState c, exec (.output d r) ⟨c, s⟩ = .next ⟨c, t⟩ ∧
    t.output = s.output ++ [s.reg d] ∧ t.input = s.input ∧
    s.sameRegs t ∧ t.pc = s.pc + 1 ∧ s.sameMem t ∧ s.sameProgram t ∧
    s.traced t (.output d r) .step

/-- Rules R106 and R108: only INPUT takes from the input stream, one value from the head, and only OUTPUT
appends to the output stream, one value. -/
def Obligations.OnlyInputAndOutputUsePorts : Prop :=
  ∀ (c : Config) (i : Instr) (s t : CoreState c), exec i ⟨c, s⟩ = .next ⟨c, t⟩ →
    (i.opcode ≠ .input → t.input = s.input) ∧
    (i.opcode = .input → t.input = s.input.tail) ∧
    (i.opcode ≠ .output → t.output = s.output) ∧
    (i.opcode = .output → t.output = s.output ++ [s.reg i.dest])

/-- Rule R106: a value offered while the core runs an instruction that does not need it just waits at the
end of the stream. -/
def Obligations.SuppliedValueWaitsItsTurn : Prop :=
  ∀ (c : Config) (s t : CoreState c) (v : Word c.xlen), s.enabled = true →
    step ⟨c, s⟩ = .next ⟨c, t⟩ → step ⟨c, s.supply v⟩ = .next ⟨c, t.supply v⟩

/-! ### JUMP, CALL, RET, UNKNOWN -/

/-- Rule R113 (JUMP): encoding, EXT only, all bits of the target register, halt for a target outside the
program, and frame. -/
def Obligations.JumpResultAndFrame : Prop :=
  (∀ d r : RegIdx,
    decode .ext (BitVec.ofNat 10 (0x180 ||| d.val <<< 3 ||| r.val)) = .jump d r) ∧
  (∀ w : ProgWord, (decode .base w).opcode ≠ .jump) ∧
  ∀ (c : Config) (d r : RegIdx) (s : CoreState c),
    ∃ t : CoreState c, exec (.jump d r) ⟨c, s⟩ = .next ⟨c, t⟩ ∧
    t.pc = s.reg r ∧ (t.halted = true ↔ s.prog.length ≤ (s.reg r).toNat) ∧
    s.sameRegs t ∧ s.sameMem t ∧ s.sameProgram t ∧ s.samePorts t ∧ s.traced t (.jump d r) .step

/-- Rule R116 (CALL): encoding, EXT only, the link cell gets the index of the CALL plus one, the target,
and frame. The premises are parts of the invariant (`StepKeepsInv`). -/
def Obligations.CallResultAndFrame : Prop :=
  (∀ d r : RegIdx,
    decode .ext (BitVec.ofNat 10 (0x1C0 ||| d.val <<< 3 ||| r.val)) = .call d r) ∧
  (∀ w : ProgWord, (decode .base w).opcode ≠ .call) ∧
  ∀ (c : Config) (d r : RegIdx) (s : CoreState c), c.valid = true → s.mem.wf = true →
    ∃ t : CoreState c, exec (.call d r) ⟨c, s⟩ = .next ⟨c, t⟩ ∧ t.pc = s.reg r ∧
      cellIndex (linkAddr c) = c.memSize - 1 ∧
      t.mem.read (cellIndex (linkAddr c)) = s.pc + 1 ∧
      s.sameMemBut (cellIndex (linkAddr c)) t ∧
      s.sameRegs t ∧ s.sameProgram t ∧ s.samePorts t ∧ s.traced t (.call d r) .step

/-- Rule R118 (RET): encoding, EXT only, the pc from the link cell, which keeps its value, and frame. -/
def Obligations.RetResultAndFrame : Prop :=
  (∀ d r : RegIdx,
    decode .ext (BitVec.ofNat 10 (0x200 ||| d.val <<< 3 ||| r.val)) = .ret d r) ∧
  (∀ w : ProgWord, (decode .base w).opcode ≠ .ret) ∧
  ∀ (c : Config) (d r : RegIdx) (s : CoreState c), c.valid = true →
    ∃ t : CoreState c, exec (.ret d r) ⟨c, s⟩ = .next ⟨c, t⟩ ∧ t.pc = s.mem.read (c.memSize - 1) ∧
      s.sameRegs t ∧ s.sameMem t ∧ s.sameProgram t ∧ s.samePorts t ∧ s.traced t (.ret d r) .step

/-- Rule R125 (UNKNOWN): every unassigned code of both configurations, the advance, one event of kind
STEP with the fields as they stand, and nothing else. -/
def Obligations.UnknownResultAndFrame : Prop :=
  (∀ (n : Nat) (d r : RegIdx), 9 ≤ n → n ≤ 15 →
    decode .ext (BitVec.ofNat 10 (n <<< 6 ||| d.val <<< 3 ||| r.val)) = .unknown d r) ∧
  (∀ (n : Nat) (d r : RegIdx), 4 ≤ n → n ≤ 7 →
    decode .base (BitVec.ofNat 10 (n <<< 6 ||| d.val <<< 3 ||| r.val)) = .unknown d r) ∧
  (encode .ext (.unknown 0 0) = 0x240 ∧ encode .base (.unknown 0 0) = 0x100) ∧
  ∀ (c : Config) (d r : RegIdx) (s : CoreState c),
    ∃ t : CoreState c, exec (.unknown d r) ⟨c, s⟩ = .next ⟨c, t⟩ ∧
    t.pc = s.pc + 1 ∧ s.sameRegs t ∧ s.sameMem t ∧ s.sameProgram t ∧ s.samePorts t ∧
    s.traced t (.unknown d r) .step

/-- Rule R114: a target whose signed reading is negative halts the core, for JUMP, for CALL and for the
value that RET reads. -/
def Obligations.NegativeTargetHalts : Prop :=
  ∀ (c : Config) (s : CoreState c) (d r : RegIdx), s.inv = true →
    ((s.reg r).toInt < 0 → ∃ t : CoreState c, exec (.jump d r) ⟨c, s⟩ = .next ⟨c, t⟩ ∧
      t.pc = s.reg r ∧ t.halted = true) ∧
    ((s.reg r).toInt < 0 → ∃ t : CoreState c, exec (.call d r) ⟨c, s⟩ = .next ⟨c, t⟩ ∧
      t.pc = s.reg r ∧ t.halted = true) ∧
    ((s.mem.read (c.memSize - 1)).toInt < 0 →
      ∃ t : CoreState c, exec (.ret d r) ⟨c, s⟩ = .next ⟨c, t⟩ ∧
        t.pc = s.mem.read (c.memSize - 1) ∧ t.halted = true)

/-- Rule R117: after two CALLs without a RET between them, both following RETs go to the index after the
second CALL. -/
def Obligations.NestedCallOverwritesReturn : Prop :=
  ∀ (c : Config) (d r d' r' e f e' f' : RegIdx) (s s₁ s₂ s₃ s₄ : CoreState c),
    c.valid = true → s.mem.wf = true →
    exec (.call d r) ⟨c, s⟩ = .next ⟨c, s₁⟩ → exec (.call d' r') ⟨c, s₁⟩ = .next ⟨c, s₂⟩ →
    exec (.ret e f) ⟨c, s₂⟩ = .next ⟨c, s₃⟩ → exec (.ret e' f') ⟨c, s₃⟩ = .next ⟨c, s₄⟩ →
    s₃.pc = s₁.pc + 1 ∧ s₄.pc = s₁.pc + 1

/-- Rule R119: the link cell resets to 0, and from a state in which it holds 0, after any run in which no
CALL and no STORE to LINK_ADDR executes, it still holds 0 and a RET goes to index 0 without any state
being reset. -/
def Obligations.RetWithoutCallRestarts : Prop :=
  (∀ c : Config, (CoreState.initial c).mem.read (c.memSize - 1) = 0) ∧
  ∀ (c : Config) (n : Nat) (s u : CoreState c) (d r : RegIdx), c.valid = true →
    s.mem.read (c.memSize - 1) = 0 → cellUntouched (c.memSize - 1) n ⟨c, s⟩ →
    Host.Core.run core n ⟨c, s⟩ = .next ⟨c, u⟩ →
    u.mem.read (c.memSize - 1) = 0 ∧
    ∃ t : CoreState c, exec (.ret d r) ⟨c, u⟩ = .next ⟨c, t⟩ ∧ t.pc = 0 ∧
      u.sameRegs t ∧ u.sameMem t ∧ u.sameProgram t ∧ u.samePorts t

/-- Rule R121: in CFG = BASE every program runs its words once in order and halts after exactly
`PROGLEN - pc` steps. -/
def Obligations.BaseProgramRunsOnceInOrder : Prop :=
  ∀ (c : Config) (s : CoreState c), s.inv = true → c.cfg = .base → s.pc.toNat ≤ s.progLen →
    ∃ t : CoreState c, Host.Core.run core (s.progLen - s.pc.toNat) ⟨c, s⟩ = .next ⟨c, t⟩ ∧
      t.pc.toNat = s.progLen ∧ t.halted = true ∧
      ∃ events, t.trace = s.trace ++ events ∧
        events.map (fun e => e.instructionIndex.toNat) =
          List.range' s.pc.toNat (s.progLen - s.pc.toNat)

/-! ### Whole-machine rules -/

/-- Rule R14: only ADD, SUB, LOAD and INPUT write a register, and only their destination. -/
def Obligations.OnlyFourInstructionsWriteRegisters : Prop :=
  ∀ (c : Config) (i : Instr) (s t : CoreState c) (r : RegIdx),
    exec i ⟨c, s⟩ = .next ⟨c, t⟩ → t.reg r ≠ s.reg r →
    r = i.dest ∧
      (i.opcode = .add ∨ i.opcode = .sub ∨ i.opcode = .load ∨ i.opcode = .input)

/-- Rule R30: memory changes only where a STORE in range or a CALL writes: a cell that reads differently
after a step is the one that the step's instruction stores to. -/
def Obligations.OnlyStoreAndCallWriteMemory : Prop :=
  ∀ (c : Config) (s t : CoreState c) (n : Nat), c.valid = true → step ⟨c, s⟩ = .next ⟨c, t⟩ →
    t.mem.read n ≠ s.mem.read n →
    ∃ i, s.current = some i ∧ s.storesAt i n

/-- Rules R22 and R41: no step changes the program store; nor the configuration (rule R6; that it stands in
State is log 4). -/
def Obligations.NoStepChangesTheProgram : Prop :=
  ∀ s t : State, step s = .next t → t.core.prog = s.core.prog ∧ t.config = s.config

/-- Rules R24 and R78: what stands in the output and trace streams is never consumed back: it changes
neither the core's next state nor what is appended to them. -/
def Obligations.StreamsOutNeverFeedBack : Prop :=
  ∀ (c : Config) (s t : CoreState c) (o : List (Word c.xlen)) (tr : List (TraceEvent c.xlen)),
    step ⟨c, s⟩ = .next ⟨c, t⟩ →
    ∃ (t' : CoreState c) (out : List (Word c.xlen)) (ev : List (TraceEvent c.xlen)),
      step ⟨c, { s with output := o, trace := tr }⟩ = .next ⟨c, t'⟩ ∧
      t'.pc = t.pc ∧ t'.regs = t.regs ∧ t'.mem = t.mem ∧ t'.prog = t.prog ∧ t'.input = t.input ∧
      t.output = s.output ++ out ∧ t'.output = o ++ out ∧
      t.trace = s.trace ++ ev ∧ t'.trace = tr ++ ev

/-- Two memories in canonical form that read alike are the same data. The canonical form is the model's
choice (log 10). -/
def Obligations.CanonicalMemoriesAreEqual : Prop :=
  ∀ (xlen : Nat) (m n : Memory xlen), m.wf = true → n.wf = true → (∀ a, m.read a = n.read a) → m = n

/-- The invariant holds at reset in every configuration that construction accepts (rules R6, R25). -/
def Obligations.ResetSatisfiesInv : Prop :=
  ∀ (c : Config), c.valid = true →
    (CoreState.initial c).inv = true ∧
    Session.construct c = .next ⟨State.resetWith c, false⟩

/-- The invariant is kept by every step: the configuration stays within rule R6, memory stays canonical
and inside MEMSIZE, and the program stays within PROGCAP with words of WORDW bits. -/
def Obligations.StepKeepsInv : Prop :=
  ∀ s t : State, s.core.inv = true → step s = .next t → t.core.inv = true

/-- The invariant is kept by every port of the host and the environment (rule R160). -/
def Obligations.PortsKeepInv : Prop :=
  ∀ h : Session, h.core.inv = true →
    h.reset.core.inv = true ∧ h.startRun.core.inv = true ∧ h.abort.core.inv = true ∧
    (∀ v, (h.supply v).core.inv = true) ∧
    (∀ ws h', h.load ws = .next h' → h'.core.inv = true) ∧
    (∀ h', h.step = .next h' → h'.core.inv = true)

/-! ### Reset, load, inspection and the assembler -/

/-- Rule R25: the reset values. -/
def Obligations.ResetValues : Prop :=
  State.reset.core.reg 0 = 0 ∧ State.reset.core.reg 1 = 4 ∧ State.reset.core.reg 2 = 9 ∧
  State.reset.core.reg 3 = 10 ∧ State.reset.core.reg 4 = 0 ∧ State.reset.core.reg 5 = 0 ∧
  State.reset.core.reg 6 = 0 ∧ State.reset.core.reg 7 = 0 ∧
  (∀ a : Nat, State.reset.core.mem.read a = 0) ∧ State.reset.core.pc = 0 ∧ State.reset.core.prog = [] ∧
  State.reset.core.halted = true ∧
  ∀ (c : Config) (i : RegIdx), (State.resetWith c).core.reg i =
    BitVec.ofInt c.xlen ((c.seed[i.val]?).getD 0)

/-- Rules R150 and R151: from any state, the reset input gives every piece of core state its reset value
and leaves the streams alone; the configuration is in the type. -/
def Obligations.ResetInputRestoresCore : Prop :=
  ∀ (c : Config) (s : CoreState c),
    (∀ i : RegIdx, s.applyReset.reg i = BitVec.ofInt c.xlen ((c.seed[i.val]?).getD 0)) ∧
    (∀ a : Nat, s.applyReset.mem.read a = 0) ∧ s.applyReset.pc = 0 ∧ s.applyReset.prog = [] ∧
    s.applyReset.halted = true ∧
    s.applyReset.input = s.input ∧ s.applyReset.output = s.output ∧ s.applyReset.trace = s.trace

/-- Rule R26: loading a program changes `prog` and PROGLEN and nothing else; only a core configured with
LOAD_REWINDS_PC = true (rule R6) also sets the pc to 0. -/
def Obligations.LoadChangesProgramOnly : Prop :=
  ∀ (c : Config) (s : CoreState c) (ws : List (BitVec (wordw c.cfg))), ws.length ≤ c.progCap →
    ∃ t : CoreState c, Session.load ⟨⟨c, s⟩, false⟩ ws = .next ⟨⟨c, t⟩, false⟩ ∧
      t.prog.map BitVec.toNat = ws.map BitVec.toNat ∧ t.progLen = ws.length ∧
      (c.loadRewindsPc = false → t.pc = s.pc) ∧ (c.loadRewindsPc = true → t.pc = 0) ∧
      t.regs = s.regs ∧ t.mem = s.mem ∧ s.samePorts t ∧ t.trace = s.trace

/-- Rule R152 and U16: a load during a run is refused, a run lasts until the core is halted, and a program
longer than PROGCAP is refused (that the host's side holds the `running` bit is the model's choice, log
9). -/
def Obligations.LoadRefusedDuringRun : Prop :=
  ∀ (h : Session) (ws : List (BitVec (wordw h.machine.config.cfg))),
    (h.running = true → h.load ws = .refused .loadDuringRun) ∧
    (h.core.halted = false → h.startRun.running = true) ∧
    (∀ h', h.running = true → h.step = .next h' → (h'.running = true ↔ h'.core.halted = false)) ∧
    (h.running = false → h.machine.config.progCap < ws.length →
      h.load ws = .refused .programTooLong)

/-- Rule R27: inspection shows the pc, every register in index order, and every cell of memory in address
order. -/
def Obligations.InspectionShowsWholeState : Prop :=
  ∀ h : Session, h.inspect.pc = h.core.pc ∧
    (∀ i : RegIdx, h.inspect.registers[i.val]? = some (i, h.core.reg i)) ∧
    (h.inspect.mem.dump h.machine.config.memSize).length = h.machine.config.memSize ∧
    ∀ a, a < h.machine.config.memSize →
      (h.inspect.mem.dump h.machine.config.memSize)[a]? = some (h.core.mem.read a)

/-- Rules R60, R64 and R65: a line with a recognized mnemonic assembles to the word that decodes to its
instruction; there is one word a line; every word has the configured layout and an assigned or
canonical code. -/
def Obligations.AssemblerPacksEachLine : Prop :=
  (∀ (c : Config) (line : List Char) (op : Opcode) (d r : RegIdx),
    parseLine c line = (some op, d, r) → decode c.cfg (assembleLine c line) = op.instr d r) ∧
  ∀ (c : Config) (text : List Char),
    (assemble c text).length = (sourceLines c text).length ∧
    ∀ w ∈ assemble c text, ProgWord.fits c.cfg w = true ∧ encode c.cfg (decode c.cfg w) = w

/-- Rules R62 and R63: an unrecognized mnemonic assembles to UNKNOWN with zero registers whatever its
tokens are; and a register token that is `R` and decimal digits naming a register gives that index,
every other token and a missing one index 0. -/
def Obligations.AssemblerFallsBackSoftly : Prop :=
  (∀ (c : Config) (line : List Char), lookupMnemonic c.cfg ((tokensOf line).headD []) = none →
    decode c.cfg (assembleLine c line) = .unknown 0 0) ∧
  (∀ op, (op = .input ∨ op = .output ∨ op = .jump ∨ op = .call ∨ op = .ret) →
    lookupMnemonic .base (Machine.Opcode.text op) = none) ∧
  ∀ (n : Nat) (tok : List Char), n ≤ 8 →
    (∀ digits, stripToken tok = 'R' :: digits → digits ≠ [] →
      (∀ ch ∈ digits, ch.isDigit = true) → decimal digits < n →
      (registerIndex n tok).val = decimal digits) ∧
    ((¬ ∃ digits, stripToken tok = 'R' :: digits ∧ digits ≠ [] ∧
      (∀ ch ∈ digits, ch.isDigit = true) ∧ decimal digits < n) → registerIndex n tok = 0) ∧
    optionalIndex n none = 0

/-- Rule R6: the computed parameters and the defaults, and the constraints that construction checks. The
256 of MEMSIZE and PROGCAP is log 4, the condition `1 <= XLEN` log 3. -/
def Obligations.ConfigurationParameters : Prop :=
  (opw .ext = 4 ∧ opw .base = 3 ∧ wordw .ext = 10 ∧ wordw .base = 9) ∧
  (Config.standard.cfg = .ext ∧ Config.standard.xlen = 32 ∧ Config.standard.nreg = 4 ∧
    Config.standard.memSize = 256 ∧ Config.standard.progCap = 256 ∧
    Config.standard.loadRewindsPc = false ∧ State.reset.config = Config.standard) ∧
  (∀ c : Config, c.readSentinel = -1 → (sentinel c).toNat = 2 ^ c.xlen - 1) ∧
  ∀ c : Config, (∃ h, Session.construct c = .next h) ↔
    1 ≤ c.xlen ∧ 1 ≤ c.memSize ∧ c.memSize ≤ 2 ^ (c.xlen - 1) ∧
      c.progCap ≤ 2 ^ (c.xlen - 1) - 1 ∧ c.nreg ≤ 8
end

