-- ==== Sys2Proof/Laws/Memory.lean ====
section
/-! SUPPORT. The laws of data memory: read over write, and the canonical form that every write keeps. -/

namespace Sys2Proof.Machine

variable {xlen : Nat}

/-- The canonical form as a proposition. -/
theorem Memory.wf_iff (m : Memory xlen) :
    m.wf = true ↔ (m.Pairwise fun p q => p.1 < q.1) ∧ ∀ p ∈ m, p.2 ≠ Memory.blank := by
  simp [Memory.wf]

/-- The existence of every listed cell as a proposition. -/
theorem Memory.within_iff (n : Nat) (m : Memory xlen) :
    m.within n = true ↔ ∀ p ∈ m, p.1 < n := by
  simp [Memory.within]

@[simp] theorem Memory.read_nil (a : Nat) : Memory.read ([] : Memory xlen) a = Memory.blank := rfl

theorem Memory.read_cons_entry (b : Nat) (v : Word xlen) (m : Memory xlen) (a : Nat) :
    Memory.read ((b, v) :: m) a = if a = b then v else m.read a := rfl

/-- A cell that no entry names reads as the blank value. -/
theorem Memory.read_unlisted (m : Memory xlen) (a : Nat) (h : ∀ p ∈ m, p.1 ≠ a) :
    m.read a = Memory.blank := by
  induction m with
  | nil => rfl
  | cons p m ih =>
    obtain ⟨b, v⟩ := p
    have hb : a ≠ b := fun e => h (b, v) (by simp) e.symm
    rw [Memory.read_cons_entry, if_neg hb]
    exact ih fun q hq => h q (by simp [hq])

/-- `Memory.cons` reads as an entry in front, when no entry behind names its cell. -/
theorem Memory.read_cons (m : Memory xlen) (a c : Nat) (v : Word xlen) (h : ∀ p ∈ m, p.1 ≠ a) :
    (Memory.cons a v m).read c = if c = a then v else m.read c := by
  unfold Memory.cons
  split
  · rename_i hv
    split
    · rename_i hc
      rw [hc, hv, Memory.read_unlisted m a h]
    · rfl
  · rfl

/-- The tail of a canonical memory is canonical, and every cell behind the head is above it. -/
theorem Memory.wf_tail {b : Nat} {u : Word xlen} {m : Memory xlen}
    (h : Memory.wf ((b, u) :: m) = true) :
    m.wf = true ∧ u ≠ Memory.blank ∧ ∀ p ∈ m, b < p.1 := by
  rw [Memory.wf_iff, List.pairwise_cons] at h
  exact ⟨(Memory.wf_iff m).2 ⟨h.1.2, fun p hp => h.2 p (by simp [hp])⟩, h.2 (b, u) (by simp), h.1.1⟩

/-- Putting a cell in front of cells above it keeps the canonical form. -/
theorem Memory.cons_wf {m : Memory xlen} {a : Nat} (v : Word xlen) (h : m.wf = true)
    (ha : ∀ p ∈ m, a < p.1) :
    (Memory.cons a v m).wf = true := by
  unfold Memory.cons
  split
  · exact h
  · rename_i hv
    rw [Memory.wf_iff] at h ⊢
    refine ⟨List.pairwise_cons.2 ⟨ha, h.1⟩, ?_⟩
    intro p hp
    rcases List.mem_cons.1 hp with rfl | hp
    · exact hv
    · exact h.2 p hp

/-- Every entry after a write was there before or is the written one. -/
theorem Memory.mem_write {m : Memory xlen} {a : Nat} {v : Word xlen} {p : Nat × Word xlen}
    (hp : p ∈ m.write a v) : p = (a, v) ∨ p ∈ m := by
  induction m with
  | nil =>
    simp only [Memory.write, Memory.cons] at hp
    split at hp <;> simp_all
  | cons q m ih =>
    obtain ⟨b, u⟩ := q
    simp only [Memory.write, Memory.cons] at hp
    split at hp
    · split at hp <;> simp_all
    · split at hp
      · split at hp
        · exact .inr (List.mem_cons_of_mem _ hp)
        · rcases List.mem_cons.1 hp with rfl | hp
          · exact .inl rfl
          · exact .inr (List.mem_cons_of_mem _ hp)
      · rcases List.mem_cons.1 hp with rfl | hp
        · exact .inr (by simp)
        · exact (ih hp).imp_right (List.mem_cons_of_mem _)

/-- A write keeps the canonical form. -/
theorem Memory.write_wf {m : Memory xlen} (a : Nat) (v : Word xlen) (h : m.wf = true) :
    (m.write a v).wf = true := by
  induction m with
  | nil => exact Memory.cons_wf v h (by simp)
  | cons q m ih =>
    obtain ⟨b, u⟩ := q
    obtain ⟨hm, hu, hb⟩ := Memory.wf_tail h
    simp only [Memory.write]
    split
    · rename_i hab
      refine Memory.cons_wf v h fun p hp => ?_
      rcases List.mem_cons.1 hp with rfl | hp
      · exact hab
      · exact hab.trans (hb p hp)
    · split
      · rename_i hab
        exact Memory.cons_wf v hm (hab ▸ hb)
      · have hw := ih hm
        rw [Memory.wf_iff] at hw ⊢
        refine ⟨List.pairwise_cons.2 ⟨fun p hp => ?_, hw.1⟩, fun p hp => ?_⟩
        · rcases Memory.mem_write hp with rfl | hp
          · simp only; omega
          · exact hb p hp
        · rcases List.mem_cons.1 hp with rfl | hp
          · exact hu
          · exact hw.2 p hp

/-- A write to an existing cell lists existing cells only. -/
theorem Memory.write_within {m : Memory xlen} {n a : Nat} (v : Word xlen) (ha : a < n)
    (h : m.within n = true) : (m.write a v).within n = true := by
  rw [Memory.within_iff] at h ⊢
  intro p hp
  rcases Memory.mem_write hp with rfl | hp
  · exact ha
  · exact h p hp

/-- Read over write: the written cell gives the value, every other cell is left alone. -/
theorem Memory.read_write {m : Memory xlen} (h : m.wf = true) (a c : Nat) (v : Word xlen) :
    (m.write a v).read c = if c = a then v else m.read c := by
  induction m with
  | nil => exact Memory.read_cons [] a c v (by simp)
  | cons q m ih =>
    obtain ⟨b, u⟩ := q
    obtain ⟨hm, -, hb⟩ := Memory.wf_tail h
    simp only [Memory.write]
    split
    · rename_i hab
      refine Memory.read_cons _ a c v fun p hp => ?_
      rcases List.mem_cons.1 hp with rfl | hp
      · exact hab.ne'
      · exact (hab.trans (hb p hp)).ne'
    · split
      · rename_i hab
        subst hab
        rw [Memory.read_cons m a c v fun p hp => (hb p hp).ne', Memory.read_cons_entry]
        split <;> rfl
      · rename_i hab
        rw [Memory.read_cons_entry, ih hm, Memory.read_cons_entry]
        split
        · rename_i hc
          rw [if_neg (by omega)]
        · rfl

/-- A write leaves every other cell alone, in any memory. -/
theorem Memory.read_write_other (m : Memory xlen) {a c : Nat} (v : Word xlen) (h : c ≠ a) :
    (m.write a v).read c = m.read c := by
  have front : ∀ m : Memory xlen, (Memory.cons a v m).read c = m.read c := fun m => by
    unfold Memory.cons
    split
    · rfl
    · rw [Memory.read_cons_entry, if_neg h]
  induction m with
  | nil => exact front []
  | cons q m ih =>
    obtain ⟨b, u⟩ := q
    simp only [Memory.write]
    split
    · exact front _
    · split
      · rename_i hab
        rw [front, Memory.read_cons_entry, if_neg (hab ▸ h)]
      · rw [Memory.read_cons_entry, ih, Memory.read_cons_entry]

end Sys2Proof.Machine
end

