-- ==== Sys2Proof/Laws/State.lean ====
section
/-! SUPPORT. One lemma per field per update of the core state, so that no later proof unfolds a record
update; the register read laws; and the field lemmas of reset, load and supply. -/

namespace Sys2Proof.Machine

variable {c : Config} (s : CoreState c)

@[simp] theorem CoreState.setReg_pc (i : RegIdx) (v : Word c.xlen) :
    (s.setReg i v).pc = s.pc := rfl
@[simp] theorem CoreState.setReg_regs (i : RegIdx) (v : Word c.xlen) :
    (s.setReg i v).regs = s.regs.set i v := rfl
@[simp] theorem CoreState.setReg_mem (i : RegIdx) (v : Word c.xlen) :
    (s.setReg i v).mem = s.mem := rfl
@[simp] theorem CoreState.setReg_prog (i : RegIdx) (v : Word c.xlen) :
    (s.setReg i v).prog = s.prog := rfl
@[simp] theorem CoreState.setReg_input (i : RegIdx) (v : Word c.xlen) :
    (s.setReg i v).input = s.input := rfl
@[simp] theorem CoreState.setReg_output (i : RegIdx) (v : Word c.xlen) :
    (s.setReg i v).output = s.output := rfl
@[simp] theorem CoreState.setReg_trace (i : RegIdx) (v : Word c.xlen) :
    (s.setReg i v).trace = s.trace := rfl

@[simp] theorem CoreState.setPc_pc (t : Word c.xlen) : (s.setPc t).pc = t := rfl
@[simp] theorem CoreState.setPc_regs (t : Word c.xlen) : (s.setPc t).regs = s.regs := rfl
@[simp] theorem CoreState.setPc_mem (t : Word c.xlen) : (s.setPc t).mem = s.mem := rfl
@[simp] theorem CoreState.setPc_prog (t : Word c.xlen) : (s.setPc t).prog = s.prog := rfl
@[simp] theorem CoreState.setPc_input (t : Word c.xlen) : (s.setPc t).input = s.input := rfl
@[simp] theorem CoreState.setPc_output (t : Word c.xlen) : (s.setPc t).output = s.output := rfl
@[simp] theorem CoreState.setPc_trace (t : Word c.xlen) : (s.setPc t).trace = s.trace := rfl

@[simp] theorem CoreState.setCell_pc (a : Nat) (v : Word c.xlen) : (s.setCell a v).pc = s.pc := rfl
@[simp] theorem CoreState.setCell_regs (a : Nat) (v : Word c.xlen) :
    (s.setCell a v).regs = s.regs := rfl
@[simp] theorem CoreState.setCell_mem (a : Nat) (v : Word c.xlen) :
    (s.setCell a v).mem = s.mem.write a v := rfl
@[simp] theorem CoreState.setCell_prog (a : Nat) (v : Word c.xlen) :
    (s.setCell a v).prog = s.prog := rfl
@[simp] theorem CoreState.setCell_input (a : Nat) (v : Word c.xlen) :
    (s.setCell a v).input = s.input := rfl
@[simp] theorem CoreState.setCell_output (a : Nat) (v : Word c.xlen) :
    (s.setCell a v).output = s.output := rfl
@[simp] theorem CoreState.setCell_trace (a : Nat) (v : Word c.xlen) :
    (s.setCell a v).trace = s.trace := rfl

@[simp] theorem CoreState.setInput_pc (rest : List (Word c.xlen)) :
    (s.setInput rest).pc = s.pc := rfl
@[simp] theorem CoreState.setInput_regs (rest : List (Word c.xlen)) :
    (s.setInput rest).regs = s.regs := rfl
@[simp] theorem CoreState.setInput_mem (rest : List (Word c.xlen)) :
    (s.setInput rest).mem = s.mem := rfl
@[simp] theorem CoreState.setInput_prog (rest : List (Word c.xlen)) :
    (s.setInput rest).prog = s.prog := rfl
@[simp] theorem CoreState.setInput_input (rest : List (Word c.xlen)) :
    (s.setInput rest).input = rest := rfl
@[simp] theorem CoreState.setInput_output (rest : List (Word c.xlen)) :
    (s.setInput rest).output = s.output := rfl
@[simp] theorem CoreState.setInput_trace (rest : List (Word c.xlen)) :
    (s.setInput rest).trace = s.trace := rfl

@[simp] theorem CoreState.out_pc (v : Word c.xlen) : (s.out v).pc = s.pc := rfl
@[simp] theorem CoreState.out_regs (v : Word c.xlen) : (s.out v).regs = s.regs := rfl
@[simp] theorem CoreState.out_mem (v : Word c.xlen) : (s.out v).mem = s.mem := rfl
@[simp] theorem CoreState.out_prog (v : Word c.xlen) : (s.out v).prog = s.prog := rfl
@[simp] theorem CoreState.out_input (v : Word c.xlen) : (s.out v).input = s.input := rfl
@[simp] theorem CoreState.out_output (v : Word c.xlen) : (s.out v).output = s.output ++ [v] := rfl
@[simp] theorem CoreState.out_trace (v : Word c.xlen) : (s.out v).trace = s.trace := rfl

@[simp] theorem CoreState.advance_pc : s.advance.pc = s.pc + 1 := rfl
@[simp] theorem CoreState.advance_regs : s.advance.regs = s.regs := rfl
@[simp] theorem CoreState.advance_mem : s.advance.mem = s.mem := rfl
@[simp] theorem CoreState.advance_prog : s.advance.prog = s.prog := rfl
@[simp] theorem CoreState.advance_input : s.advance.input = s.input := rfl
@[simp] theorem CoreState.advance_output : s.advance.output = s.output := rfl
@[simp] theorem CoreState.advance_trace : s.advance.trace = s.trace := rfl

@[simp] theorem CoreState.emit_pc (n : Word c.xlen) (i : Instr) (k : TraceKind c.xlen) :
    (s.emit n i k).pc = s.pc := rfl
@[simp] theorem CoreState.emit_regs (n : Word c.xlen) (i : Instr) (k : TraceKind c.xlen) :
    (s.emit n i k).regs = s.regs := rfl
@[simp] theorem CoreState.emit_mem (n : Word c.xlen) (i : Instr) (k : TraceKind c.xlen) :
    (s.emit n i k).mem = s.mem := rfl
@[simp] theorem CoreState.emit_prog (n : Word c.xlen) (i : Instr) (k : TraceKind c.xlen) :
    (s.emit n i k).prog = s.prog := rfl
@[simp] theorem CoreState.emit_input (n : Word c.xlen) (i : Instr) (k : TraceKind c.xlen) :
    (s.emit n i k).input = s.input := rfl
@[simp] theorem CoreState.emit_output (n : Word c.xlen) (i : Instr) (k : TraceKind c.xlen) :
    (s.emit n i k).output = s.output := rfl
@[simp] theorem CoreState.emit_trace (n : Word c.xlen) (i : Instr) (k : TraceKind c.xlen) :
    (s.emit n i k).trace = s.trace ++ [⟨k, n, i.opcode, i.dest, i.src, s.snapshot⟩] := rfl

/-- Read over write of a register: the written cell gives the value, every other is left alone. -/
theorem CoreState.reg_setReg (d i : RegIdx) (v : Word c.xlen) :
    (s.setReg d v).reg i = if i = d then v else s.reg i := by
  simp only [CoreState.setReg, CoreState.reg, Vector.get_eq_getElem, Vector.getElem_set, Fin.ext_iff,
    eq_comm]

@[simp] theorem CoreState.reg_setReg_same (d : RegIdx) (v : Word c.xlen) :
    (s.setReg d v).reg d = v := by
  simp [CoreState.reg_setReg]

@[simp] theorem CoreState.reg_setReg_other {d i : RegIdx} (v : Word c.xlen) (h : i ≠ d) :
    (s.setReg d v).reg i = s.reg i := by
  simp [CoreState.reg_setReg, h]

@[simp] theorem CoreState.reg_setPc (t : Word c.xlen) (j : RegIdx) :
    (s.setPc t).reg j = s.reg j := rfl
@[simp] theorem CoreState.reg_setCell (a : Nat) (v : Word c.xlen) (j : RegIdx) :
    (s.setCell a v).reg j = s.reg j := rfl
@[simp] theorem CoreState.reg_setInput (rest : List (Word c.xlen)) (j : RegIdx) :
    (s.setInput rest).reg j = s.reg j := rfl
@[simp] theorem CoreState.reg_out (v : Word c.xlen) (j : RegIdx) : (s.out v).reg j = s.reg j := rfl
@[simp] theorem CoreState.reg_advance (j : RegIdx) : s.advance.reg j = s.reg j := rfl
@[simp] theorem CoreState.reg_emit (n : Word c.xlen) (i : Instr) (k : TraceKind c.xlen) (j : RegIdx) :
    (s.emit n i k).reg j = s.reg j := rfl

@[simp] theorem CoreState.progLen_eq : s.progLen = s.prog.length := rfl

@[simp] theorem CoreState.snapshot_pc : s.snapshot.pc = s.pc := rfl
@[simp] theorem CoreState.snapshot_regs : s.snapshot.regs = s.regs := rfl
@[simp] theorem CoreState.snapshot_mem : s.snapshot.mem = s.mem := rfl

@[simp] theorem CoreState.initial_pc (c : Config) : (CoreState.initial c).pc = 0 := rfl
@[simp] theorem CoreState.initial_mem (c : Config) : (CoreState.initial c).mem = [] := rfl
@[simp] theorem CoreState.initial_prog (c : Config) : (CoreState.initial c).prog = [] := rfl
@[simp] theorem CoreState.initial_input (c : Config) : (CoreState.initial c).input = [] := rfl
@[simp] theorem CoreState.initial_output (c : Config) : (CoreState.initial c).output = [] := rfl
@[simp] theorem CoreState.initial_trace (c : Config) : (CoreState.initial c).trace = [] := rfl

/-- The reset value of a register (rule R25): its seed as an XLEN-bit value, or 0. -/
theorem CoreState.initial_reg (c : Config) :
    ∀ i : RegIdx, (CoreState.initial c).reg i = BitVec.ofInt c.xlen ((c.seed[i.val]?).getD 0)
  | 0 | 1 | 2 | 3 | 4 | 5 | 6 | 7 => rfl

@[simp] theorem State.resetWith_config (c : Config) : (State.resetWith c).config = c := rfl
@[simp] theorem State.resetWith_core (c : Config) :
    (State.resetWith c).core = CoreState.initial c := rfl

@[simp] theorem CoreState.loadProgram_pc (ws : List (BitVec (wordw c.cfg))) :
    (s.loadProgram ws).pc = if c.loadRewindsPc then 0 else s.pc := rfl
@[simp] theorem CoreState.loadProgram_regs (ws : List (BitVec (wordw c.cfg))) :
    (s.loadProgram ws).regs = s.regs := rfl
@[simp] theorem CoreState.loadProgram_mem (ws : List (BitVec (wordw c.cfg))) :
    (s.loadProgram ws).mem = s.mem := rfl
@[simp] theorem CoreState.loadProgram_prog (ws : List (BitVec (wordw c.cfg))) :
    (s.loadProgram ws).prog = ws.map fun w => w.setWidth 10 := rfl
@[simp] theorem CoreState.loadProgram_input (ws : List (BitVec (wordw c.cfg))) :
    (s.loadProgram ws).input = s.input := rfl
@[simp] theorem CoreState.loadProgram_output (ws : List (BitVec (wordw c.cfg))) :
    (s.loadProgram ws).output = s.output := rfl
@[simp] theorem CoreState.loadProgram_trace (ws : List (BitVec (wordw c.cfg))) :
    (s.loadProgram ws).trace = s.trace := rfl

@[simp] theorem CoreState.supply_pc (v : Word c.xlen) : (s.supply v).pc = s.pc := rfl
@[simp] theorem CoreState.supply_regs (v : Word c.xlen) : (s.supply v).regs = s.regs := rfl
@[simp] theorem CoreState.supply_mem (v : Word c.xlen) : (s.supply v).mem = s.mem := rfl
@[simp] theorem CoreState.supply_prog (v : Word c.xlen) : (s.supply v).prog = s.prog := rfl
@[simp] theorem CoreState.supply_input (v : Word c.xlen) :
    (s.supply v).input = s.input ++ [v] := rfl
@[simp] theorem CoreState.supply_output (v : Word c.xlen) : (s.supply v).output = s.output := rfl
@[simp] theorem CoreState.supply_trace (v : Word c.xlen) : (s.supply v).trace = s.trace := rfl

end Sys2Proof.Machine
end

