-- ==== Sys2Proof/Laws/Ops.lean ====
section
/-! SUPPORT. For each shared operation, once, everything it can do. -/

namespace Sys2Proof.Machine

variable {xlen : Nat} {c : Config}

/-- The bounds test as a proposition (rule R31). -/
theorem inRange_iff (c : Config) (a : Word c.xlen) :
    inRange c a = true ↔ 0 ≤ a.toInt ∧ a.toInt < (c.memSize : Int) := by
  simp [inRange]

/-- An in-range address names an existing cell. -/
theorem cellIndex_lt {a : Word c.xlen} (h : inRange c a = true) :
    cellIndex a < c.memSize := by
  rw [inRange_iff] at h
  unfold cellIndex
  omega

/-- A valid configuration, as propositions (rule R6): half the range of a word is `2^(XLEN-1)`, and
MEMSIZE and PROGCAP stay in the lower half. -/
theorem Config.valid_bounds {c : Config} (h : c.valid = true) :
    2 ^ c.xlen = 2 * 2 ^ (c.xlen - 1) ∧ 1 ≤ c.memSize ∧ c.memSize ≤ 2 ^ (c.xlen - 1) ∧
      c.progCap < 2 ^ (c.xlen - 1) ∧ c.nreg ≤ 8 := by
  simp only [Config.valid, Bool.and_eq_true, decide_eq_true_eq, and_assoc] at h
  obtain ⟨hx, hm, hm', hp, hn⟩ := h
  have hpos : 0 < 2 ^ (c.xlen - 1) := Nat.two_pow_pos _
  refine ⟨?_, hm, hm', by omega, hn⟩
  rw [← Nat.pow_succ', Nat.succ_eq_add_one, Nat.sub_add_cancel hx]

/-- In a valid configuration LINK_ADDR reads as `MEMSIZE - 1`. -/
theorem linkAddr_toNat {c : Config} (h : c.valid = true) : (linkAddr c).toNat = c.memSize - 1 := by
  have hb := Config.valid_bounds h
  simp only [linkAddr, BitVec.toNat_ofNat]
  exact Nat.mod_eq_of_lt (by omega)

/-- The same for the signed reading. -/
theorem linkAddr_toInt {c : Config} (h : c.valid = true) :
    (linkAddr c).toInt = ((c.memSize - 1 : Nat) : Int) := by
  have hb := Config.valid_bounds h
  have hn := linkAddr_toNat h
  rw [BitVec.toInt_eq_toNat_of_lt (by omega), hn]

/-- LINK_ADDR is always in range (rule R31). -/
theorem linkAddr_inRange {c : Config} (h : c.valid = true) : inRange c (linkAddr c) = true := by
  have hb := Config.valid_bounds h
  rw [inRange_iff, linkAddr_toInt h]
  omega

@[simp] theorem linkAddr_cellIndex {c : Config} (h : c.valid = true) :
    cellIndex (linkAddr c) = c.memSize - 1 := by
  simp [cellIndex, linkAddr_toInt h]

/-- MemRead in range (rule R33). -/
theorem memRead_inRange {s : CoreState c} {a : Word c.xlen} (h : inRange c a = true) :
    memRead s a = (s.mem.read (cellIndex a), false) := by
  simp [memRead, h]

/-- MemRead out of range (rule R33). -/
theorem memRead_outOfRange {s : CoreState c} {a : Word c.xlen} (h : inRange c a = false) :
    memRead s a = (sentinel c, true) := by
  simp [memRead, h]

/-- MemWrite in range (rule R34). -/
theorem memWrite_inRange {s : CoreState c} {a : Word c.xlen} (v : Word c.xlen)
    (h : inRange c a = true) :
    memWrite s a v = (s.setCell (cellIndex a) v, false) := by
  simp [memWrite, h]

/-- MemWrite out of range: nothing is written (rule R34). -/
theorem memWrite_outOfRange {s : CoreState c} {a : Word c.xlen} (v : Word c.xlen)
    (h : inRange c a = false) :
    memWrite s a v = (s, true) := by
  simp [memWrite, h]

/-- What MemWrite can do, in one statement. -/
theorem memWrite_cases (s : CoreState c) (a v : Word c.xlen) :
    (inRange c a = true ∧ memWrite s a v = (s.setCell (cellIndex a) v, false)) ∨
      (inRange c a = false ∧ memWrite s a v = (s, true)) := by
  cases h : inRange c a
  · exact .inr ⟨rfl, memWrite_outOfRange v h⟩
  · exact .inl ⟨rfl, memWrite_inRange v h⟩

@[simp] theorem memWrite_pc (s : CoreState c) (a v : Word c.xlen) :
    (memWrite s a v).1.pc = s.pc := by
  unfold memWrite
  split <;> rfl
@[simp] theorem memWrite_regs (s : CoreState c) (a v : Word c.xlen) :
    (memWrite s a v).1.regs = s.regs := by
  unfold memWrite
  split <;> rfl
@[simp] theorem memWrite_prog (s : CoreState c) (a v : Word c.xlen) :
    (memWrite s a v).1.prog = s.prog := by
  unfold memWrite
  split <;> rfl
@[simp] theorem memWrite_input (s : CoreState c) (a v : Word c.xlen) :
    (memWrite s a v).1.input = s.input := by
  unfold memWrite
  split <;> rfl
@[simp] theorem memWrite_output (s : CoreState c) (a v : Word c.xlen) :
    (memWrite s a v).1.output = s.output := by
  unfold memWrite
  split <;> rfl
@[simp] theorem memWrite_trace (s : CoreState c) (a v : Word c.xlen) :
    (memWrite s a v).1.trace = s.trace := by
  unfold memWrite
  split <;> rfl
@[simp] theorem memWrite_mem (s : CoreState c) (a v : Word c.xlen) :
    (memWrite s a v).1.mem =
    if inRange c a then s.mem.write (cellIndex a) v else s.mem := by
  unfold memWrite
  split <;> rfl
@[simp] theorem memWrite_reg (s : CoreState c) (a v : Word c.xlen) (i : RegIdx) :
    (memWrite s a v).1.reg i = s.reg i := by
  simp [CoreState.reg]

/-- Whether MemWrite reports a MemoryFault. -/
theorem memWrite_fault (s : CoreState c) (a v : Word c.xlen) :
    (memWrite s a v).2 = !inRange c a := by
  unfold memWrite
  split <;> simp_all

/-- Whether MemRead reports a MemoryFault. -/
theorem memRead_fault (s : CoreState c) (a : Word c.xlen) : (memRead s a).2 = !inRange c a := by
  unfold memRead
  split <;> simp_all

@[simp] theorem faultKind_false (a : Word xlen) : faultKind false a = .step := rfl
@[simp] theorem faultKind_true (a : Word xlen) : faultKind true a = .memFault a := rfl

/-- The end of a step gives a next state: the same configuration, and the core after the writes with one
more event. -/
theorem complete_eq_next {i : Instr} {s : State} {k : TraceKind s.config.xlen}
    {u : CoreState s.config} {t : State} :
    complete i s k u = .next t ↔ t = ⟨s.config, u.emit s.core.pc i k⟩ := by
  simp [complete, eq_comm]

/-- The same for a core of a fixed configuration. -/
theorem complete_eq_next_core {i : Instr} {s u t : CoreState c} {k : TraceKind c.xlen} :
    complete i ⟨c, s⟩ k u = .next ⟨c, t⟩ ↔ t = u.emit s.pc i k := by
  simp [complete, eq_comm]

/-- The invariant, as its parts. -/
theorem CoreState.inv_iff (s : CoreState c) :
    s.inv = true ↔ c.valid = true ∧ s.mem.wf = true ∧
      s.mem.within c.memSize = true ∧ s.prog.length ≤ c.progCap ∧
      ∀ w ∈ s.prog, ProgWord.fits c.cfg w = true := by
  simp only [CoreState.inv, Bool.and_eq_true, decide_eq_true_eq, List.all_eq_true, and_assoc]

end Sys2Proof.Machine
end

