-- ==== Sys2Proof/Laws/PerInstr.lean ====
section
/-! SUPPORT. Statements about every instruction as syntax, one lemma per constructor. -/

namespace Sys2Proof.Laws.EncodeFits

/-- The encoding of an instruction is a word of WORDW bits in every configuration (rules R51, R52, R58). -/
def Statement (i : Instr) : Prop := ∀ c : Cfg, ProgWord.fits c (encode c i) = true

/-- A packed word of a code the layout can hold has WORDW bits. -/
theorem packWord_fits : ∀ (n : Fin 8) (d s : RegIdx), ProgWord.fits .base (packWord n.val d s) = true := by
  decide

theorem add (d s : RegIdx) : Statement (.add d s)
  | .ext => rfl
  | .base => packWord_fits 0 d s

theorem sub (d s : RegIdx) : Statement (.sub d s)
  | .ext => rfl
  | .base => packWord_fits 1 d s

theorem load (d s : RegIdx) : Statement (.load d s)
  | .ext => rfl
  | .base => packWord_fits 2 d s

theorem store (d s : RegIdx) : Statement (.store d s)
  | .ext => rfl
  | .base => packWord_fits 3 d s

theorem input (d s : RegIdx) : Statement (.input d s)
  | .ext => rfl
  | .base => packWord_fits 4 d s

theorem output (d s : RegIdx) : Statement (.output d s)
  | .ext => rfl
  | .base => packWord_fits 4 d s

theorem jump (d s : RegIdx) : Statement (.jump d s)
  | .ext => rfl
  | .base => packWord_fits 4 d s

theorem call (d s : RegIdx) : Statement (.call d s)
  | .ext => rfl
  | .base => packWord_fits 4 d s

theorem ret (d s : RegIdx) : Statement (.ret d s)
  | .ext => rfl
  | .base => packWord_fits 4 d s

theorem unknown (d s : RegIdx) : Statement (.unknown d s)
  | .ext => rfl
  | .base => packWord_fits 4 d s

end Sys2Proof.Laws.EncodeFits
end

