-- ==== Sys2Proof/Laws/Step.lean ====
section
/-! SUPPORT. Fetch and step: when a word is fetched, and what a step can be. -/

namespace Sys2Proof.Machine

variable {c : Config}

/-- The halt test as a proposition (rule R156). -/
theorem CoreState.halted_iff (s : CoreState c) : s.halted = true ↔ s.prog.length ≤ s.pc.toNat := by
  simp [CoreState.halted]

/-- Its negation: a word stands at the pc. -/
theorem CoreState.not_halted_iff (s : CoreState c) : s.halted = false ↔ s.pc.toNat < s.prog.length := by
  simp [CoreState.halted]

/-- A halted core fetches nothing, and only a halted core does. -/
theorem CoreState.fetch_eq_none_iff (s : CoreState c) : s.fetch = none ↔ s.halted = true := by
  simp [CoreState.fetch, CoreState.halted]

/-- The same for the decoded instruction. -/
theorem CoreState.current_eq_none_iff (s : CoreState c) : s.current = none ↔ s.halted = true := by
  simp [CoreState.current, CoreState.fetch_eq_none_iff]

/-- The decoded instruction is the decoder's reading of the fetched word. -/
theorem CoreState.current_eq_some_iff (s : CoreState c) (i : Instr) :
    s.current = some i ↔ ∃ w, s.fetch = some w ∧ decode c.cfg w = i := by
  simp [CoreState.current]

/-- A step is nothing on a halted core, and else the dispatch of the current instruction. -/
theorem step_cases (s : State) :
    (s.core.current = none ∧ step s = .next s) ∨
      (∃ i, s.core.current = some i ∧ step s = exec i s) := by
  cases h : s.core.current with
  | none => exact .inl ⟨rfl, by simp [step, h]⟩
  | some i => exact .inr ⟨i, rfl, by simp [step, h]⟩

/-- What a next state of `exec` is: the same state for an INPUT that waits, and else a completed step of
the same configuration whose writes left the trace alone. -/
theorem exec_next_cases {i : Instr} {s : CoreState c} {t : State} (h : exec i ⟨c, s⟩ = .next t) :
    (s.input = [] ∧ (∃ d r, i = .input d r) ∧ t = ⟨c, s⟩) ∨
      (∃ (k : TraceKind c.xlen) (u : CoreState c), t = ⟨c, u.emit s.pc i k⟩ ∧
        u.trace = s.trace) := by
  cases i with
  | input d r =>
    simp only [exec, execInput] at h
    split at h
    · rename_i hin
      exact .inl ⟨hin, ⟨d, r, rfl⟩, by simpa using h.symm⟩
    · exact .inr ⟨_, _, complete_eq_next.1 h, rfl⟩
  | store d r => exact .inr ⟨_, _, complete_eq_next.1 h, by simp⟩
  | call d r => exact .inr ⟨_, _, complete_eq_next.1 h, by simp⟩
  | _ => exact .inr ⟨_, _, complete_eq_next.1 h, rfl⟩

/-- An instruction keeps the configuration. -/
theorem exec_keeps_config {i : Instr} {s : CoreState c} {t : State} (h : exec i ⟨c, s⟩ = .next t) :
    ∃ u : CoreState c, t = ⟨c, u⟩ := by
  rcases exec_next_cases h with ⟨-, -, rfl⟩ | ⟨k, u, rfl, -⟩ <;> exact ⟨_, rfl⟩

/-- So does a step, so that a statement about the next states `⟨c, t⟩` misses none. -/
theorem step_keeps_config {s : CoreState c} {t : State} (h : step ⟨c, s⟩ = .next t) :
    ∃ u : CoreState c, t = ⟨c, u⟩ := by
  rcases step_cases ⟨c, s⟩ with ⟨-, hs⟩ | ⟨i, -, hs⟩ <;> rw [hs] at h
  · cases h
    exact ⟨s, rfl⟩
  · exact exec_keeps_config h

/-- A run of `n + 1` steps of any machine is a step and a run of `n` steps. -/
theorem machine_run_succ (M : Host.Core) (n : Nat) {s t : M.State} (h : M.step s = .next t) :
    M.run (n + 1) s = M.run n t := by
  rw [Host.Core.run, h]

/-- The same for this core. -/
theorem core_run_succ (n : Nat) {s t : State} (h : step s = .next t) :
    Host.Core.run core (n + 1) s = Host.Core.run core n t :=
  machine_run_succ core n h

/-- A state that a step leaves as it is, any run leaves as it is. -/
theorem core_run_fixed {s : State} (h : step s = .next s) (n : Nat) :
    Host.Core.run core n s = .next s := by
  induction n with
  | zero => rfl
  | succ n ih => rw [core_run_succ n h, ih]

/-- The word placed for the next fetch is the one fetched. -/
theorem placeWord_getElem? (c : Cfg) (prog : List ProgWord) (n : Nat) (w : ProgWord) :
    (placeWord c prog n w)[n]? = some w := by
  have hl : (prog.take n ++ List.replicate (n - prog.length) (encode c (.unknown 0 0))).length = n := by
    simp only [List.length_append, List.length_take, List.length_replicate]
    omega
  unfold placeWord
  rw [List.getElem?_append_right (by omega), hl]
  simp

/-- `withFetchWord` makes the next step fetch the word it places. -/
theorem State.withFetchWord_fetch (s : State) (nbits w : Nat) :
    (s.withFetchWord nbits w).core.fetch = some (portWord s.config.cfg w) :=
  placeWord_getElem? _ _ _ _

end Sys2Proof.Machine
end

