-- ==== Sys2Proof/Tests/Slice0.lean ====
section
/-! SUPPORT. Tests on fixed values, with expected results from 95_test_vectors.md or worked by hand from
the rule named, and a witness for the hypotheses of every statement that has any. -/

open Sys2Proof
open Sys2Proof.Machine

namespace Sys2Proof.Tests

/-- The next state of an outcome, if it is one. -/
def next? {σ φ ρ : Type} : Host.Outcome σ φ ρ → Option σ
  | .next s => some s
  | .fault _ => none
  | .refused _ => none

/-- The core after reset in the default configuration, with a program and a pc. -/
def withProgram (prog : List ProgWord) (pc : BitVec 32) : CoreState Config.standard :=
  { CoreState.initial Config.standard with prog := prog, pc := pc }

/-- One step on a program of eight UNKNOWN words with `w` at index 3 (section 2.5), after `f` has set the
state up. -/
def stepAt3 (w : ProgWord) (f : CoreState Config.standard → CoreState Config.standard) : Option State :=
  next? (step ⟨_, f (withProgram [0x240, 0x240, 0x240, w, 0x240, 0x240, 0x240, 0x240] 3)⟩)

/-- The machine of a core of the default configuration. -/
abbrev std (s : CoreState Config.standard) : State := ⟨Config.standard, s⟩

/-- A register as a number. -/
def regOf (i : RegIdx) (t : State) : Nat := (t.core.reg i).toNat

/-- The pc as a number. -/
def pcOf (t : State) : Nat := t.core.pc.toNat

/-- The listed cells of memory as numbers. -/
def cellsOf (t : State) : List (Nat × Nat) := t.core.mem.map fun p => (p.1, p.2.toNat)

/-- The fault address of a trace event's kind, `none` for a STEP event. -/
def faultOf {xlen : Nat} : TraceKind xlen → Option Nat
  | .step => none
  | .memFault a => some a.toNat

/-- The fault address of the last trace event. -/
def lastFault (t : State) : Option (Option Nat) := t.core.trace.getLast?.map fun e => faultOf e.kind

/-- The default configuration in the base layout. -/
def baseConfig : Config := { Config.standard with cfg := .base }

/-- The default configuration with words of 8 bits, MEMSIZE and PROGCAP at their bounds. -/
def narrowConfig : Config := { Config.standard with xlen := 8, memSize := 128, progCap := 127 }

/-! ### The checks refuse ill-formed terms -/

theorem test_wellFormed_refuses_input_in_base : Instr.wellFormed .base (.input 1 0) = false := by
  decide
theorem test_wellFormed_refuses_output_in_base : Instr.wellFormed .base (.output 1 0) = false := by
  decide
theorem test_wellFormed_refuses_jump_in_base : Instr.wellFormed .base (.jump 0 1) = false := by
  decide
theorem test_wellFormed_refuses_call_in_base : Instr.wellFormed .base (.call 0 1) = false := by
  decide
theorem test_wellFormed_refuses_ret_in_base : Instr.wellFormed .base (.ret 0 0) = false := by
  decide
theorem test_fits_refuses_ten_bit_word_in_base : ProgWord.fits .base 0x200 = false := by decide
theorem test_valid_refuses_no_memory :
    Config.valid { Config.standard with memSize := 0 } = false := by decide
theorem test_valid_refuses_large_memory :
    Config.valid { Config.standard with memSize := 2147483649 } = false := by decide
theorem test_valid_refuses_large_program_store :
    Config.valid { Config.standard with progCap := 2147483648 } = false := by decide
theorem test_valid_refuses_words_without_bits :
    Config.valid { Config.standard with xlen := 0 } = false := by decide
theorem test_valid_bounds_follow_xlen : narrowConfig.valid = true ∧
    Config.valid { narrowConfig with memSize := 129 } = false ∧
    Config.valid { narrowConfig with progCap := 128 } = false := by decide
theorem test_valid_refuses_nine_seeds :
    Config.valid { Config.standard with seed := [0, 0, 0, 0, 0, 0, 0, 0, 0] } = false := by decide
theorem test_decodeTableWord_refuses_eleven_bit_word : decodeTableWord 16 0x400 = none := by decide

/-! ### Decoding: one word per constructor, written from rules R50 to R53 -/

theorem test_decode_add : decode .ext 0b0000001010#10 = .add 1 2 := by decide
theorem test_decode_sub : decode .ext 0b0001000011#10 = .sub 0 3 := by decide
theorem test_decode_load : decode .ext 0b0010001000#10 = .load 1 0 := by decide
theorem test_decode_store : decode .ext 0b0011010001#10 = .store 2 1 := by decide
theorem test_decode_input : decode .ext 0b0100101011#10 = .input 5 3 := by decide
theorem test_decode_output : decode .ext 0b0101010000#10 = .output 2 0 := by decide
theorem test_decode_jump : decode .ext 0b0110010000#10 = .jump 2 0 := by decide
theorem test_decode_call : decode .ext 0b0111000001#10 = .call 0 1 := by decide
theorem test_decode_ret : decode .ext 0b1000111111#10 = .ret 7 7 := by decide
theorem test_decode_unknown : decode .ext 0b1111111111#10 = .unknown 7 7 := by decide
theorem test_decode_unknown_canonical : decode .ext 0b1001000000#10 = .unknown 0 0 := by decide
theorem test_decode_base_unknown : decode .base 0b111000001#10 = .unknown 0 1 := by decide
/-- Section 2.1, last line: the non-canonical code re-encodes to the canonical one. -/
theorem test_reencode_noncanonical : encode .ext (decode .ext 0x280) = 0x240 := by decide

/-! ### Instructions: section 2.2 to 2.6 of 95_test_vectors.md -/

theorem test_add_wraps : (stepAt3 0x00A fun s => (s.setReg 1 0x7FFFFFFF#32).setReg 2 1#32).map
    (fun t => (regOf 1 t, pcOf t)) = some (0x80000000, 4) := by decide
theorem test_sub_below_zero : (stepAt3 0x043 id).map (regOf 0) = some 0xFFFFFFF6 := by decide
theorem test_sub_operand_order : (stepAt3 0x05A id).map (fun t => (regOf 3 t, regOf 2 t)) =
    some (1, 9) := by decide
theorem test_load_same_register : (stepAt3 0x089 fun s => s.setCell 4 9#32).map (regOf 1) =
    some 9 := by decide
theorem test_load_past_end : (stepAt3 0x0A9 fun s => s.setReg 1 256#32).map
    (fun t => (regOf 5 t, pcOf t, lastFault t)) = some (0xFFFFFFFF, 4, some (some 0x100)) := by decide
theorem test_store_last_cell : (stepAt3 0x0DA fun s => (s.setReg 3 77#32).setReg 2 255#32).map
    (fun t => (cellsOf t, lastFault t)) = some ([(255, 77)], some none) := by decide
theorem test_store_negative_dropped : (stepAt3 0x0D0 fun s => s.setReg 0 0xFFFFFFFF#32).map
    (fun t => (cellsOf t, pcOf t, lastFault t)) = some ([], 4, some (some 0xFFFFFFFF)) := by decide
theorem test_input_takes_one : (stepAt3 0x12B fun s => s.setInput [7#32, 8#32]).map
    (fun t => (regOf 5 t, regOf 3 t, t.core.input.map BitVec.toNat)) = some (7, 10, [8]) := by decide
theorem test_input_waits : (stepAt3 0x108 id).map
    (fun t => (pcOf t, regOf 1 t, t.core.trace.length, t.core.halted)) = some (3, 4, 0, false) := by
  decide
theorem test_output_ignores_src : (stepAt3 0x157 fun s => (s.setReg 2 8#32).setReg 7 5#32).map
    (fun t => (t.core.output.map BitVec.toNat, regOf 2 t)) = some ([8], 8) := by decide
theorem test_jump_to_end_halts : (stepAt3 0x182 fun s => s.setReg 2 8#32).map
    (fun t => (pcOf t, t.core.halted)) = some (8, true) := by decide
theorem test_jump_one_operand : (stepAt3 0x190 fun s => s.setReg 2 6#32).map pcOf = some 0 := by
  decide
theorem test_call_saves_next : (stepAt3 0x1C1 fun s => s.setReg 1 6#32).map
    (fun t => (cellsOf t, pcOf t)) = some ([(255, 4)], 6) := by decide
theorem test_ret_out_of_range : (stepAt3 0x23F fun s => s.setCell 255 77#32).map
    (fun t => (pcOf t, cellsOf t, t.core.halted)) = some (77, [(255, 77)], true) := by decide
theorem test_ret_before_call : (stepAt3 0x200 id).map pcOf = some 0 := by decide
theorem test_unknown_advances : (stepAt3 0x240 id).map (fun t => (pcOf t, cellsOf t)) =
    some (4, []) := by decide
theorem test_unknown_event : ∃ t : CoreState Config.standard,
    step ⟨_, withProgram [0x3FF] 0⟩ = .next ⟨_, t⟩ ∧ t.trace =
      [⟨.step, 0#32, .unknown, 7, 7, ⟨1#32, #v[0#32, 4#32, 9#32, 10#32, 0#32, 0#32, 0#32, 0#32], []⟩⟩] :=
  ⟨_, rfl, by decide⟩

/-! ### The same in other configurations -/

theorem test_base_step_of_call_bits :
    (next? (step ⟨baseConfig, { CoreState.initial baseConfig with prog := [0x1C1] }⟩)).map
      (fun t => (pcOf t, cellsOf t)) = some (1, []) := by decide
/-- Rule R6: MEMSIZE = 1 makes cell 0 the link cell. -/
theorem test_call_one_cell_memory :
    (next? (step ⟨{ Config.standard with memSize := 1 },
      { CoreState.initial _ with prog := [0x1C3] }⟩)).map (fun t => (pcOf t, cellsOf t)) =
      some (10, [(0, 1)]) := by decide
/-- Rule R87 at XLEN = 8, with one register as both operands: 127 + 127 is 254, whose signed reading is
-2. -/
theorem test_add_doubles_at_eight_bits :
    (next? (step ⟨narrowConfig, { (CoreState.initial narrowConfig).setReg 2 127#8 with
      prog := [0x012] }⟩)).map (fun t => (regOf 2 t, (t.core.reg 2).toInt)) =
      some (254, -2) := by decide
/-- Rules R6, R31 and R33 at XLEN = 8: address 128 is -128, and the sentinel is `2^8 - 1`. -/
theorem test_memRead_sentinel_at_eight_bits :
    memRead (CoreState.initial narrowConfig) 128#8 = (255#8, true) := rfl

/-! ### Memory, ports and the assembler -/

/-- Writing what an unlisted cell reads as removes the entry. -/
theorem test_write_zero_removes : Memory.write [(3, 7#32), (9, 1#32)] 3 0 = [(9, 1#32)] := by decide
theorem test_write_keeps_order :
    Memory.write [(3, 7#32), (9, 1#32)] 5 2 = [(3, 7#32), (5, 2#32), (9, 1#32)] := by
  decide
/-- Reset memory is in canonical form, and the reset state meets the invariant. -/
theorem test_reset_inv : State.reset.core.mem.wf = true ∧ State.reset.core.inv = true := by decide
/-- Section 2.7: reset, no load: halted at once. -/
theorem test_reset_halted : (next? (step State.reset)) = some State.reset := by decide
/-- The placed word is the one that runs, from reset. -/
theorem test_withFetchWord_from_reset :
    (State.reset.withFetchWord 16 0x00A).core.current = some (.add 1 2) := by decide
/-- A pc past the program: the program is filled up. -/
theorem test_withFetchWord_past_end :
    (State.withFetchWord ⟨_, withProgram [] 2⟩ 16 0x043).core.prog = [0x240, 0x240, 0x043] := by
  decide
/-- Scenario A's text (section 1.1) with the separators of rule R62. -/
theorem test_assemble_scenario_a :
    assemble Config.standard ['A', 'D', 'D', ' ', 'R', '1', ',', ' ', '[', 'R', '2', ']', '\n',
      'S', 'U', 'B', ' ', 'R', '0', ' ', 'R', '3', '\n'] = [0x00A, 0x043] := by decide
/-- Rules R61 to R63: `NOP` is UNKNOWN, `JUMP R2` has source 0, `R4` is no assembler name, and a blank line
ends the text. -/
theorem test_assemble_fallbacks :
    assemble Config.standard ['N', 'O', 'P', ' ', 'R', '1', '\n', 'J', 'U', 'M', 'P', ' ', 'R', '2',
      '\n', 'A', 'D', 'D', ' ', 'R', '4', ' ', 'R', '3', '\n', '\n', 'R', 'E', 'T'] =
      [0x240, 0x190, 0x003] := by decide
theorem test_disassemble : disassemble .ext 0x0D1 =
    ['S', 'T', 'O', 'R', 'E', ' ', 'R', '2', ' ', 'R', '1'] := by decide

/-! ### Witnesses: a state and operands that meet the hypotheses of each statement -/

/-- P2 of section 3 as a loaded program, at the STORE. -/
def storeState : CoreState Config.standard := withProgram [0x0D1, 0x081] 0

/-- A core waiting in INPUT. -/
def waitState : CoreState Config.standard := withProgram [0x108] 0

/-- A core at a CALL whose target is 6. -/
def callState : CoreState Config.standard :=
  (withProgram [0x240, 0x240, 0x240, 0x1C1] 3).setReg 1 6#32

/-- A core at an ADD followed by a RET, before any CALL. -/
def retState : CoreState Config.standard := withProgram [0x00A, 0x200] 0

/-- A core of the base layout in the middle of a program. -/
def baseState : CoreState baseConfig :=
  { CoreState.initial baseConfig with prog := [0x00A, 0x0D1, 0x1C1], pc := 1#32 }

theorem witness_EncodeAndDecodeAgree :
    Instr.wellFormed .base (.unknown 7 7) = true ∧ Instr.wellFormed .ext (.ret 7 7) = true ∧
      ProgWord.fits .base 0x1FF = true ∧ ProgWord.fits .ext 0x3FF = true := by decide
theorem witness_EveryWordMatchesOneTableRow : ProgWord.fits .base 0x1FF = true := by decide
theorem witness_DecoderReadsThreeFields : ProgWord.fits .base 0x1FF = true ∧
    ProgWord.fits .ext 0x3FF = true := by decide
theorem witness_NoWordIsIllegal :
    storeState.prog[storeState.pc.toNat]? = some 0x0D1 ∧ storeState.waiting = false := by decide
theorem witness_LayoutsAgreeOnBaseMnemonics : Instr.store 7 7 =
      ([Opcode.add, .sub, .load, .store].getD (3#2).toNat .unknown).instr (7#3).toFin (7#3).toFin ∧
    (0x0FF : ProgWord).toNat < 256 ∧
    256 ≤ (0x100 : ProgWord).toNat ∧ (0x1FF : ProgWord).toNat < 512 ∧
    (Instr.store 7 7).opcode = .store := by decide
theorem witness_StepRunsDecodedInstruction :
    (std callState).core.prog[(std callState).core.pc.toNat]? = some 0x1C1 := by decide
theorem witness_PlacedTableWordRunsNext :
    State.reset.config.cfg = .ext ∧ decodeTableWord 16 0x3FF = some (.unknown 7 7) := by decide
theorem witness_HaltedCoreDoesNothing :
    (std (withProgram [0x240] 1)).core.halted = true := by decide
theorem witness_OneTraceEventPerFetchCycle :
    (∃ t, step (std storeState) = .next (std t)) ∧ storeState.enabled = true ∧
      (∃ t, step (std waitState) = .next (std t)) ∧ waitState.enabled = false :=
  ⟨⟨_, rfl⟩, by decide, ⟨_, rfl⟩, by decide⟩
theorem witness_TraceCountEqualsFetchCycles :
    ∃ t, Host.Core.run core 2 (std storeState) = .next t ∧ fetchCycles 2 (std storeState) = 2 :=
  ⟨_, rfl, by decide⟩
theorem witness_MemFaultOnlyOutOfRange :
    ∃ t, exec (.load 1 0) (std (storeState.setReg 0 256#32)) = .next (std t) ∧
      (storeState.setReg 0 256#32).traced t (.load 1 0) (.memFault 256#32) :=
  ⟨_, rfl, rfl⟩
theorem witness_PcAfterEachInstruction : Config.standard.valid = true ∧
    (∃ t, exec (.call 0 1) (std callState) = .next (std t)) ∧
    (∃ t, exec (.jump 0 1) (std callState) = .next (std t)) ∧
    (∃ t, exec (.ret 0 1) (std callState) = .next (std t)) ∧
    (∃ t, exec (.add 0 1) (std callState) = .next (std t)) ∧
    ¬ ((Instr.call 0 1).opcode = .input ∧ callState.input = []) :=
  ⟨by decide, ⟨_, rfl⟩, ⟨_, rfl⟩, ⟨_, rfl⟩, ⟨_, rfl⟩, by decide⟩
theorem witness_AdvanceNeverWraps : storeState.inv = true ∧ storeState.halted = false ∧
    (withProgram [] (-1)).inv = true ∧ (withProgram [] (-1)).pc.toInt < 0 := by decide
theorem witness_StoreResultAndFrame : storeState.mem.wf = true ∧
    (0 ≤ (effectiveAddress 1 (storeState.setReg 1 255#32)).toInt ∧
      (effectiveAddress 1 (storeState.setReg 1 255#32)).toInt < (Config.standard.memSize : Int)) ∧
    ¬ (0 ≤ (effectiveAddress 1 (storeState.setReg 1 256#32)).toInt ∧
      (effectiveAddress 1 (storeState.setReg 1 256#32)).toInt < (Config.standard.memSize : Int)) := by
  decide
theorem witness_LoadResultAndFrame :
    (0 ≤ (storeState.reg 0).toInt ∧ (storeState.reg 0).toInt < (Config.standard.memSize : Int)) ∧
    ¬ (0 ≤ ((storeState.setReg 0 (-1)).reg 0).toInt ∧
      ((storeState.setReg 0 (-1)).reg 0).toInt < (Config.standard.memSize : Int)) := by decide
theorem witness_OutOfRangeAccessIsSoft :
    ¬ (0 ≤ (256#32).toInt ∧ (256#32).toInt < (Config.standard.memSize : Int)) ∧
      ¬ (0 ≤ (-1#32).toInt ∧ (-1#32).toInt < (Config.standard.memSize : Int)) ∧
      ((storeState.setReg 1 256#32).reg 1).toNat = 256 := by decide
theorem witness_SignedAndUnsignedBoundsAgree :
    Config.standard.valid = true ∧ inRange Config.standard 255#32 = true ∧
      narrowConfig.valid = true ∧ inRange narrowConfig 127#8 = true := by decide
theorem witness_StoreThenLoadReturnsValue :
    Config.standard.valid = true ∧ storeState.mem.wf = true ∧
      inRange Config.standard (storeState.reg 1) = true ∧
      ∃ t u v, exec (.store 2 1) (std storeState) = .next (std t) ∧
        cellUntouched (cellIndex (storeState.reg 1)) 1 (std t) ∧
        Host.Core.run core 1 (std t) = .next (std u) ∧ u.reg 1 = storeState.reg 1 ∧
        exec (.load 0 1) (std u) = .next (std v) := by
  refine ⟨by decide, by decide, by decide, _, _, _, rfl, ⟨?_, fun _ _ => trivial⟩, rfl, rfl, rfl⟩
  rintro i hi (⟨d, r, rfl, -⟩ | ⟨d, r, rfl, -⟩) <;> exact absurd hi (by decide +revert)
theorem witness_InputTakesHeadAndFrame : (waitState.setInput [21#32]).input = 21#32 :: [] :=
  rfl
theorem witness_WaitingInputResumesWithSuppliedValue :
    waitState.current = some (.input 1 0) ∧ waitState.input = [] := by decide
theorem witness_OnlyInputAndOutputUsePorts :
    (∃ t, exec (.input 1 0) (std waitState) = .next (std t)) ∧
      ∃ t, exec (.output 1 0) (std waitState) = .next (std t) :=
  ⟨⟨_, rfl⟩, ⟨_, rfl⟩⟩
theorem witness_SuppliedValueWaitsItsTurn :
    storeState.enabled = true ∧ ∃ t, step (std storeState) = .next (std t) :=
  ⟨by decide, _, rfl⟩
theorem witness_CallResultAndFrame :
    Config.standard.valid = true ∧ callState.mem.wf = true := by decide
theorem witness_RetResultAndFrame : Config.standard.valid = true := by decide
theorem witness_UnknownResultAndFrame :
    (9 : Nat) ≤ 9 ∧ (9 : Nat) ≤ 15 ∧ (15 : Nat) ≤ 15 ∧ (4 : Nat) ≤ 4 ∧ (7 : Nat) ≤ 7 := by decide
theorem witness_NegativeTargetHalts :
    ((callState.setReg 1 (-1)).setCell 255 0x80000000#32).inv = true ∧
      (((callState.setReg 1 (-1)).setCell 255 0x80000000#32).reg 1).toInt < 0 ∧
      (((callState.setReg 1 (-1)).setCell 255 0x80000000#32).mem.read 255).toInt < 0 := by decide
theorem witness_NestedCallOverwritesReturn :
    Config.standard.valid = true ∧ callState.mem.wf = true ∧
      ∃ s₁ s₂ s₃ s₄, exec (.call 0 1) (std callState) = .next (std s₁) ∧
        exec (.call 0 2) (std s₁) = .next (std s₂) ∧
        exec (.ret 0 0) (std s₂) = .next (std s₃) ∧ exec (.ret 0 0) (std s₃) = .next (std s₄) :=
  ⟨by decide, by decide, _, _, _, _, rfl, rfl, rfl, rfl⟩
theorem witness_RetWithoutCallRestarts : Config.standard.valid = true ∧
    retState.mem.read (Config.standard.memSize - 1) = 0 ∧
    cellUntouched (Config.standard.memSize - 1) 1 (std retState) ∧
    ∃ u, Host.Core.run core 1 (std retState) = .next (std u) ∧ u.current = some (.ret 0 0) := by
  refine ⟨by decide, by decide, ⟨?_, fun _ _ => trivial⟩, _, rfl, by decide⟩
  rintro i hi (⟨d, r, rfl, -⟩ | ⟨d, r, rfl, -⟩) <;> exact absurd hi (by decide +revert)
theorem witness_BaseProgramRunsOnceInOrder : baseState.inv = true ∧
    baseConfig.cfg = .base ∧ baseState.pc.toNat ≤ baseState.progLen := by decide
theorem witness_OnlyFourInstructionsWriteRegisters :
    ∃ t, exec (.load 1 0) (std storeState) = .next (std t) ∧ t.reg 1 ≠ storeState.reg 1 :=
  ⟨_, rfl, by decide⟩
theorem witness_OnlyStoreAndCallWriteMemory : Config.standard.valid = true ∧
    (∃ t, step (std storeState) = .next (std t) ∧ t.mem.read 4 ≠ storeState.mem.read 4) ∧
    ∃ t, step (std callState) = .next (std t) ∧ t.mem.read 255 ≠ callState.mem.read 255 :=
  ⟨by decide, ⟨_, rfl, by decide⟩, ⟨_, rfl, by decide⟩⟩
theorem witness_NoStepChangesTheProgram : ∃ t, step (std callState) = .next t := ⟨_, rfl⟩
theorem witness_StreamsOutNeverFeedBack : ∃ t, step (std storeState) = .next (std t) := ⟨_, rfl⟩
theorem witness_CanonicalMemoriesAreEqual : Memory.wf (Memory.write [(7, 1#32)] 3 2) = true ∧
    Memory.wf [(3, 2#32), (7, 1#32)] = true ∧
    ∀ a, (Memory.write [(7, 1#32)] 3 2).read a = Memory.read [(3, 2#32), (7, 1#32)] a :=
  ⟨by decide, by decide, fun _ => rfl⟩
theorem witness_ResetSatisfiesInv :
    Config.standard.valid = true ∧ baseConfig.valid = true ∧ narrowConfig.valid = true := by decide
theorem witness_StepKeepsInv :
    (std callState).core.inv = true ∧ ∃ t, step (std callState) = .next t :=
  ⟨by decide, _, rfl⟩
theorem witness_PortsKeepInv : (Session.mk (std callState) false).core.inv = true ∧
    (∃ h', Session.load ⟨std callState, false⟩ [0x3FF#10] = .next h') ∧
    ∃ h', Session.step ⟨std callState, true⟩ = .next h' :=
  ⟨by decide, ⟨_, rfl⟩, ⟨_, rfl⟩⟩
theorem witness_LoadChangesProgramOnly :
    [0x00A#10, 0x043#10].length ≤ Config.standard.progCap ∧ Config.standard.loadRewindsPc = false ∧
      Config.loadRewindsPc { Config.standard with loadRewindsPc := true } = true := by decide
theorem witness_LoadRefusedDuringRun :
    (Session.mk (std callState) true).running = true ∧ callState.halted = false ∧
      (∃ h', Session.step ⟨std callState, true⟩ = .next h') ∧
      Config.progCap { Config.standard with progCap := 1 } < [0x00A#10, 0x043#10].length :=
  ⟨rfl, by decide, ⟨_, rfl⟩, by decide⟩
theorem witness_InspectionShowsWholeState :
    255 < (Session.mk State.reset false).machine.config.memSize := by decide
theorem witness_AssemblerPacksEachLine :
    parseLine Config.standard ['R', 'E', 'T'] = (some .ret, 0, 0) ∧
      0x200 ∈ assemble Config.standard ['R', 'E', 'T'] := by decide
/-- The last register of an eight- and a four-register core, the first index past the end, and the malformed
tokens of rule R62. -/
theorem witness_AssemblerFallsBackSoftly :
    lookupMnemonic Config.standard.cfg ((tokensOf ['N', 'O', 'P']).headD []) = none ∧ (8 : Nat) ≤ 8 ∧
      stripToken ['[', 'R', '7', ']', ','] = 'R' :: ['7'] ∧ Char.isDigit '7' = true ∧
      decimal ['7'] = 7 ∧ registerIndex 8 ['[', 'R', '7', ']', ','] = 7 ∧
      registerIndex 4 ['R', '3'] = 3 ∧ registerIndex 4 ['R', '4'] = 0 ∧ registerIndex 8 ['R', '8'] = 0 ∧
      registerIndex 4 ['R'] = 0 ∧ registerIndex 4 ['r', '1'] = 0 ∧ registerIndex 4 ['3'] = 0 ∧
      registerIndex 4 ['R', '1', 'x'] = 0 := by decide
theorem witness_AluFunctionTable : Opcode.ret ≠ .add ∧ Opcode.ret ≠ .sub ∧ Opcode.ret ≠ .load ∧
    Opcode.ret ≠ .store := by decide
theorem witness_ConfigurationParameters : Config.standard.readSentinel = -1 ∧
    Config.standard.valid = true ∧ narrowConfig.valid = true := by decide

end Sys2Proof.Tests
end

namespace Sys2Proof.Machine

variable {c : Config}

/-! ### The pc after an instruction -/

/-- Rule R16: the pc that an instruction run at `s` leaves behind when it completes. -/
def CoreState.nextPc (s : CoreState c) : Instr → Word c.xlen
  | .jump _ r | .call _ r => s.reg r
  | .ret _ _ => s.mem.read (c.memSize - 1)
  | .add _ _ | .sub _ _ | .load _ _ | .store _ _ | .input _ _ | .output _ _ | .unknown _ _ => s.pc + 1

/-- In a valid configuration reading at LINK_ADDR gives the link cell and reports no MemoryFault (rule
R31). -/
theorem memRead_linkAddr (hc : c.valid = true) (s : CoreState c) :
    memRead s (linkAddr c) = (s.mem.read (c.memSize - 1), false) := by
  rw [memRead_inRange (linkAddr_inRange hc), linkAddr_cellIndex hc]

/-- A completed instruction leaves `nextPc` in the pc; only an INPUT that waits does not complete. -/
theorem exec_next_pc (hc : c.valid = true) {i : Instr} {s t : CoreState c}
    (h : exec i ⟨c, s⟩ = .next ⟨c, t⟩) (hrun : ¬ (i.opcode = .input ∧ s.input = [])) :
    t.pc = s.nextPc i := by
  cases i with
  | input d r =>
    simp only [exec, execInput] at h
    split at h
    · next hin => exact absurd ⟨rfl, hin⟩ hrun
    · rw [complete_eq_next_core.1 h]; rfl
  | store d r => rw [complete_eq_next_core.1 h]; simp [CoreState.nextPc]
  | ret d r =>
    rw [complete_eq_next_core.1 h]
    simp [CoreState.nextPc, memRead_linkAddr hc]
  | _ => rw [complete_eq_next_core.1 h]; rfl

/-! ### Loading a program -/

/-- A program word is no wider than a word of the extended layout (rules R51, R52). -/
theorem wordw_le_ten : ∀ k : Cfg, wordw k ≤ 10
  | .ext => by decide
  | .base => by decide

/-- With no run in progress and at most PROGCAP words the load port accepts the program (rule R152). -/
theorem Session.load_accepted {h : Session} {ws : List (BitVec (wordw h.machine.config.cfg))}
    (hrun : h.running = false) (hlen : ws.length ≤ h.machine.config.progCap) :
    h.load ws = .next (h.withCore (h.core.loadProgram ws)) := by
  simp [Session.load, hrun, Nat.not_lt.2 hlen]

/-- The loaded program holds the numbers of the given words: widening a word keeps its number. -/
theorem CoreState.loadProgram_prog_toNat (s : CoreState c) (ws : List (BitVec (wordw c.cfg))) :
    (s.loadProgram ws).prog.map BitVec.toNat = ws.map BitVec.toNat := by
  rw [CoreState.loadProgram_prog, List.map_map]
  exact List.map_congr_left fun w _ => BitVec.toNat_setWidth_of_le (wordw_le_ten c.cfg)

/-! ### The state after reset -/

/-- With no program every core is halted (rules R25, R156). -/
theorem CoreState.halted_of_no_program {s : CoreState c} (h : s.prog = []) : s.halted = true := by
  simp [CoreState.halted_iff, h]

end Sys2Proof.Machine

/-! ### The obligations -/

namespace Sys2Proof.Proofs

open Sys2Proof.Machine

/-- Settles O14: each clause reads `nextPc` at the constructors of its opcode. -/
theorem pcAfterEachInstruction : Obligations.PcAfterEachInstruction := by
  intro c i s t hc h hrun
  rw [exec_next_pc hc h hrun]
  cases i <;> simp [Instr.opcode, Instr.src, CoreState.nextPc]

/-- Settles O49: the accepted load gives `loadProgram`, whose field lemmas are the clauses. -/
theorem loadChangesProgramOnly : Obligations.LoadChangesProgramOnly := by
  intro c s ws hlen
  exact ⟨s.loadProgram ws, Session.load_accepted rfl hlen, s.loadProgram_prog_toNat ws, by simp,
    fun hkeep => by simp [hkeep], fun hrewind => by simp [hrewind], rfl, rfl, ⟨rfl, rfl⟩, rfl⟩

/-- Settles O47: the eight values are the seeds of the default configuration, and the core is halted for
want of a program. -/
theorem resetValues : Obligations.ResetValues := by
  have seeds := CoreState.initial_reg Config.standard
  exact ⟨seeds 0, seeds 1, seeds 2, seeds 3, seeds 4, seeds 5, seeds 6, seeds 7,
    Memory.read_nil, rfl, rfl, CoreState.halted_of_no_program rfl, CoreState.initial_reg⟩

end Sys2Proof.Proofs

namespace Sys2Proof.Machine

variable {c : Config}

/-! ### The bounds test -/

/-- The failing bounds test as a proposition (rule R31). -/
theorem inRange_eq_false_iff (c : Config) (a : Word c.xlen) :
    inRange c a = false ↔ ¬ (0 ≤ a.toInt ∧ a.toInt < (c.memSize : Int)) := by
  rw [← inRange_iff, Bool.not_eq_true]

/-- An address whose unsigned reading is below MEMSIZE has its sign bit clear: MEMSIZE is at most
`2^(XLEN-1)`. -/
theorem toInt_eq_toNat_of_lt_memSize (hc : c.valid = true) {a : Word c.xlen}
    (h : a.toNat < c.memSize) : a.toInt = a.toNat := by
  have hb := Config.valid_bounds hc
  exact BitVec.toInt_eq_toNat_of_lt (by omega)

/-- The unsigned bounds test gives the same answer as the signed one (rule R31). -/
theorem inRange_iff_toNat_lt (hc : c.valid = true) (a : Word c.xlen) :
    inRange c a = true ↔ a.toNat < c.memSize := by
  rw [inRange_iff]
  constructor
  · rintro ⟨hnonneg, hlt⟩
    have hread := BitVec.toInt_eq_toNat_of_lt (BitVec.toInt_pos_iff.1 hnonneg)
    omega
  · intro h
    rw [toInt_eq_toNat_of_lt_memSize hc h]
    omega

/-- In a valid configuration an in-range address names the cell of its unsigned reading (rule R31). -/
theorem cellIndex_eq_toNat (hc : c.valid = true) {a : Word c.xlen} (h : inRange c a = true) :
    cellIndex a = a.toNat := by
  simp [cellIndex, toInt_eq_toNat_of_lt_memSize hc ((inRange_iff_toNat_lt hc a).1 h)]

/-! ### LOAD and STORE out of range -/

/-- LOAD out of range: the sentinel goes to `x[d]` and the step's event is the MEMFAULT (rule R95). -/
theorem exec_load_outOfRange {s : CoreState c} {r : RegIdx} (d : RegIdx)
    (h : inRange c (s.reg r) = false) :
    exec (.load d r) ⟨c, s⟩ =
      .next ⟨c, (s.advance.setReg d (sentinel c)).emit s.pc (.load d r) (.memFault (s.reg r))⟩ := by
  simp [exec, execLoad, complete, effectiveAddress, operand2, memRead_outOfRange h]

/-- STORE out of range: nothing but the advance and the MEMFAULT event (rule R97). -/
theorem exec_store_outOfRange {s : CoreState c} {r : RegIdx} (d : RegIdx)
    (h : inRange c (s.reg r) = false) :
    exec (.store d r) ⟨c, s⟩ =
      .next ⟨c, s.advance.emit s.pc (.store d r) (.memFault (s.reg r))⟩ := by
  simp [exec, execStore, complete, effectiveAddress, operand2, memWrite_outOfRange _ h]

end Sys2Proof.Machine

/-! ### The obligations on data memory -/

namespace Sys2Proof.Proofs

open Sys2Proof.Machine

/-- Settles O23: the bounds test fails, and the next states of LOAD and STORE then differ from `s` in
the pc, the loaded register and the trace only. -/
theorem outOfRangeAccessIsSoft : Obligations.OutOfRangeAccessIsSoft := by
  intro c s a v h
  have hout := (inRange_eq_false_iff c a).2 h
  refine ⟨memRead_outOfRange hout, memWrite_outOfRange v hout, fun d r hr => ?_⟩
  subst hr
  exact ⟨⟨_, exec_load_outOfRange d hout, rfl, fun _ => rfl⟩,
    ⟨_, exec_store_outOfRange d hout, rfl, fun _ => rfl⟩⟩

/-- Settles O24: MEMSIZE stays in the lower half of a word's range, where both readings agree. -/
theorem signedAndUnsignedBoundsAgree : Obligations.SignedAndUnsignedBoundsAgree := by
  intro c hc
  exact ⟨fun a => ⟨inRange_iff c a, inRange_iff_toNat_lt hc a, cellIndex_eq_toNat hc⟩,
    linkAddr_inRange hc, linkAddr_toNat hc⟩

end Sys2Proof.Proofs

/-! ### The decoder and the encoder as arithmetic -/

namespace Sys2Proof

/-! The fields of an instruction built from an opcode tag. -/

@[simp] theorem Opcode.instr_opcode (op : Opcode) (d s : RegIdx) : (op.instr d s).opcode = op := by
  cases op <;> rfl

@[simp] theorem Opcode.instr_dest (op : Opcode) (d s : RegIdx) : (op.instr d s).dest = d := by
  cases op <;> rfl

@[simp] theorem Opcode.instr_src (op : Opcode) (d s : RegIdx) : (op.instr d s).src = s := by
  cases op <;> rfl

/-- An instruction is determined by its three fields (rule R54). -/
@[simp] theorem Instr.instr_fields (i : Instr) : i.opcode.instr i.dest i.src = i := by
  cases i <;> rfl

/-! The fields of a word and of the decoded instruction (rules R50, R54). -/

/-- The opcode field is the bits above bit 5, cut to OPW bits. -/
theorem opcodeField_eq (c : Cfg) (w : ProgWord) : opcodeField c w = w.toNat / 64 % 2 ^ opw c := by
  simp [opcodeField, Nat.shiftRight_eq_div_pow]

theorem destField_val (w : ProgWord) : (destField w).val = w.toNat / 8 % 8 := by
  simp [destField, Nat.shiftRight_eq_div_pow]

theorem srcField_val (w : ProgWord) : (srcField w).val = w.toNat % 8 := by
  simp [srcField]

/-- A word of the configuration has no bit above its opcode field (rules R51, R52). -/
theorem opcodeField_of_fits {c : Cfg} {w : ProgWord} (h : ProgWord.fits c w = true) :
    opcodeField c w = w.toNat / 64 := by
  rw [opcodeField_eq]
  cases c with
  | ext => simp only [opw]; omega
  | base =>
    have hw : w.toNat < 512 := by simpa [ProgWord.fits] using h
    simp only [opw]; omega

@[simp] theorem decode_opcode (c : Cfg) (w : ProgWord) :
    (decode c w).opcode = opcodeOf c (opcodeField c w) := by simp [decode]

@[simp] theorem decode_dest (c : Cfg) (w : ProgWord) : (decode c w).dest = destField w := by
  simp [decode]

@[simp] theorem decode_src (c : Cfg) (w : ProgWord) : (decode c w).src = srcField w := by
  simp [decode]

/-! The packing (rule R58). -/

/-- The three fields of a packed word do not overlap, so the packing is a sum. -/
theorem packWord_toNat {n : Nat} (hn : n < 16) (d s : RegIdx) :
    (packWord n d s).toNat = n * 64 + d.val * 8 + s.val := by
  have hd := d.isLt
  have hs := s.isLt
  have hdest : n * 64 ||| d.val * 8 = n * 64 + d.val * 8 := by
    rw [← Nat.shiftLeft_eq n 6, Nat.shiftLeft_add_eq_or_of_lt (by omega)]
  have hsrc : (n * 64 + d.val * 8) ||| s.val = n * 64 + d.val * 8 + s.val := by
    rw [show n * 64 + d.val * 8 = (n * 8 + d.val) <<< 3 by rw [Nat.shiftLeft_eq]; omega,
      Nat.shiftLeft_add_eq_or_of_lt hs]
  simp (disch := omega) only [packWord, BitVec.toNat_or, BitVec.toNat_shiftLeft, BitVec.toNat_ofNat,
    Nat.shiftLeft_eq, Nat.reducePow, Nat.mod_eq_of_lt, hdest, hsrc]

/-- The fields of a packed word are the packed fields: decoding reads back what was packed. -/
theorem decode_packWord {c : Cfg} {n : Nat} (hn : n < 2 ^ opw c) (d s : RegIdx) :
    decode c (packWord n d s) = (opcodeOf c n).instr d s := by
  have hn16 : n < 16 := by cases c <;> simp only [opw] at hn <;> omega
  have hword := packWord_toNat hn16 d s
  have hd := d.isLt
  have hs := s.isLt
  have hcode : opcodeField c (packWord n d s) = n := by
    rw [opcodeField_eq, hword, show (n * 64 + d.val * 8 + s.val) / 64 = n by omega,
      Nat.mod_eq_of_lt hn]
  have hdest : destField (packWord n d s) = d := by
    apply Fin.ext; rw [destField_val, hword]; omega
  have hsrc : srcField (packWord n d s) = s := by
    apply Fin.ext; rw [srcField_val, hword]; omega
  rw [decode, hcode, hdest, hsrc]

/-! The opcode map and the codes (rules R53, R58). -/

/-- The mnemonics of a configuration in the order of their codes. -/
def mnemonics : Cfg → List Opcode
  | .ext => [.add, .sub, .load, .store, .input, .output, .jump, .call, .ret]
  | .base => [.add, .sub, .load, .store]

/-- The opcode map is the list of the mnemonics, with UNKNOWN past its end. -/
theorem opcodeOf_eq_mnemonics (c : Cfg) (n : Nat) :
    opcodeOf c n = (mnemonics c)[n]?.getD .unknown :=
  match c, n with
  | .ext, 0 | .ext, 1 | .ext, 2 | .ext, 3 | .ext, 4 | .ext, 5 | .ext, 6 | .ext, 7 | .ext, 8 => rfl
  | .base, 0 | .base, 1 | .base, 2 | .base, 3 => rfl
  | .ext, _ + 9 | .base, _ + 4 => rfl

/-- Every code fits in the opcode field. -/
theorem codeOf_lt (c : Cfg) (op : Opcode) : codeOf c op < 2 ^ opw c := by
  cases c <;> cases op <;> decide

theorem codeOf_lt_sixteen (c : Cfg) (op : Opcode) : codeOf c op < 16 :=
  (codeOf_lt c op).trans_le (by cases c <;> decide)

/-- A well-formed instruction's code stands for its opcode. -/
theorem opcodeOf_codeOf {c : Cfg} {i : Instr} (h : i.wellFormed c = true) :
    opcodeOf c (codeOf c i.opcode) = i.opcode := by
  cases c with
  | ext => cases i <;> rfl
  | base =>
    cases i with
    | add | sub | load | store | unknown => rfl
    | input | output | jump | call | ret => cases h

/-- Going from a code to its opcode and back keeps the assigned codes and takes every other code to the
canonical UNKNOWN code. -/
theorem codeOf_opcodeOf (c : Cfg) (n : Nat) :
    codeOf c (opcodeOf c n) = min n (codeOf c .unknown) :=
  match c, n with
  | .ext, 0 | .ext, 1 | .ext, 2 | .ext, 3 | .ext, 4 | .ext, 5 | .ext, 6 | .ext, 7 | .ext, 8 => rfl
  | .base, 0 | .base, 1 | .base, 2 | .base, 3 => rfl
  | .ext, n + 9 => (Nat.min_eq_right (Nat.le_add_left 9 n)).symm
  | .base, n + 4 => (Nat.min_eq_right (Nat.le_add_left 4 n)).symm

/-- The opcode map of both layouts begins with the four codes of the 8-bit layout (rule R59). -/
theorem opcodeOf_of_lt_four (c : Cfg) {n : Nat} (hn : n < 4) :
    opcodeOf c n = [Opcode.add, .sub, .load, .store].getD n .unknown := by
  cases c <;> interval_cases n <;> rfl

/-- Every code from 4 is unassigned in the base layout (rule R53). -/
theorem opcodeOf_base_of_four_le {n : Nat} (hn : 4 ≤ n) : opcodeOf .base n = .unknown := by
  rw [opcodeOf_eq_mnemonics, List.getElem?_eq_none (l := mnemonics .base) hn,
    Option.getD_none]

/-- The codes 4 to 7, which a BASE word can hold, are these four mnemonics in EXT (rule R53). -/
theorem opcodeOf_ext_of_four_le {n : Nat} (hle : 4 ≤ n) (hlt : n < 8) :
    opcodeOf .ext n = [Opcode.input, .output, .jump, .call].getD (n - 4) .unknown := by
  interval_cases n <;> rfl

/-- The canonical UNKNOWN code follows the four codes of the 8-bit layout (rule R58). -/
theorem four_le_codeOf_unknown (c : Cfg) : 4 ≤ codeOf c .unknown := by
  cases c <;> decide

/-- ADD, SUB, LOAD and STORE have the same code in both layouts, below 4 (rule R59). -/
theorem codeOf_shared (c c' : Cfg) {op : Opcode}
    (h : op = .add ∨ op = .sub ∨ op = .load ∨ op = .store) :
    codeOf c op = codeOf c' op ∧ codeOf c op < 4 := by
  rcases h with rfl | rfl | rfl | rfl <;> simp [codeOf]

/-! The encoder (rule R58). -/

/-- The number of an encoded instruction. -/
theorem encode_toNat (c : Cfg) (i : Instr) :
    (encode c i).toNat = codeOf c i.opcode * 64 + i.dest.val * 8 + i.src.val :=
  packWord_toNat (codeOf_lt_sixteen c i.opcode) i.dest i.src

/-- Decoding inverts encoding on the instructions of the configuration. -/
theorem decode_encode {c : Cfg} {i : Instr} (h : i.wellFormed c = true) :
    decode c (encode c i) = i := by
  rw [encode, decode_packWord (codeOf_lt c i.opcode), opcodeOf_codeOf h, Instr.instr_fields]

/-- Encoding the instruction of a code packs that code, or the canonical one past it. -/
theorem encode_instr_opcodeOf (c : Cfg) (n : Nat) (d s : RegIdx) :
    encode c ((opcodeOf c n).instr d s) = packWord (min n (codeOf c .unknown)) d s := by
  simp [encode, codeOf_opcodeOf]

/-- Encoding a decoded word keeps its register fields and takes its code to the canonical one. -/
theorem encode_decode_toNat {c : Cfg} {w : ProgWord} (h : ProgWord.fits c w = true) :
    (encode c (decode c w)).toNat =
      min (w.toNat / 64) (codeOf c .unknown) * 64 + w.toNat / 8 % 8 * 8 + w.toNat % 8 := by
  have hcode := codeOf_lt_sixteen c .unknown
  rw [decode, encode_instr_opcodeOf, packWord_toNat (by omega), opcodeField_of_fits h, destField_val,
    srcField_val]

/-! Words of the 8-bit layout (rule R59). -/

/-- A word of the 8-bit layout, zero-extended, is the packing of its three fields. -/
theorem setWidth_append_eq_packWord (code : BitVec 2) (d r : BitVec 3) :
    (code ++ d ++ r).setWidth 10 = packWord code.toNat d.toFin r.toFin := by
  have hcode := code.isLt
  have hd := d.isLt
  have hr := r.isLt
  apply BitVec.eq_of_toNat_eq
  rw [packWord_toNat (by omega)]
  rw [BitVec.toNat_setWidth, BitVec.toNat_append, BitVec.toNat_append,
    ← Nat.shiftLeft_add_eq_or_of_lt hr, ← Nat.shiftLeft_add_eq_or_of_lt hd, Nat.shiftLeft_eq,
    Nat.shiftLeft_eq, BitVec.val_toFin, BitVec.val_toFin]
  omega

/-- Zero-extension keeps the number of an 8-bit word. -/
theorem packWord_toNat_eq_append (code : BitVec 2) (d r : BitVec 3) :
    (packWord code.toNat d.toFin r.toFin).toNat = (code ++ d ++ r).toNat := by
  rw [← setWidth_append_eq_packWord, BitVec.toNat_setWidth_of_le (by decide)]

/-- Below 512 both layouts read the same opcode field. -/
theorem opcodeField_of_lt (c : Cfg) {w : ProgWord} (h : w.toNat < 512) :
    opcodeField c w = w.toNat / 64 := by
  cases c with
  | ext => exact opcodeField_of_fits rfl
  | base => exact opcodeField_of_fits (decide_eq_true h)

end Sys2Proof

/-! ### The obligations on the encoding -/

namespace Sys2Proof.Proofs

/-- Settles O3: a packed word's fields are read back as packed, and going from a code to its opcode and
back changes exactly the codes past the canonical UNKNOWN one. -/
theorem encodeAndDecodeAgree : Obligations.EncodeAndDecodeAgree := by
  refine ⟨fun c i hi => ⟨encode_toNat c i, decode_encode hi⟩, fun c w hw => ?_⟩
  rw [← BitVec.toNat_inj, encode_decode_toNat hw]
  omega

/-- Settles O2: the opcode field of a fitting word is the quotient by 64, and the opcode map is the list
of the mnemonics. -/
theorem decoderReadsThreeFields : Obligations.DecoderReadsThreeFields := by
  intro c w hw
  rw [decode_opcode, decode_dest, decode_src, opcodeField_of_fits hw, opcodeOf_eq_mnemonics]
  exact ⟨by cases c <;> rfl, destField_val w, srcField_val w⟩

/-- Settles O6: both layouts read the same field of a word below 512, and their opcode maps and codes
agree on the four mnemonics of the 8-bit layout. -/
theorem layoutsAgreeOnBaseMnemonics : Obligations.LayoutsAgreeOnBaseMnemonics := by
  refine ⟨fun c code d r i hi => ?_, fun w hw => ?_, fun w hle hlt => ?_, fun c c' i hi => ?_⟩
  · have hword : encode c i = packWord code.toNat d.toFin r.toFin := by
      rw [hi, ← opcodeOf_of_lt_four c code.isLt, encode_instr_opcodeOf,
        Nat.min_eq_left (code.isLt.le.trans (four_le_codeOf_unknown c))]
    have hcode : code.toNat < 2 ^ opw c :=
      code.isLt.trans_le ((four_le_codeOf_unknown c).trans (codeOf_lt c .unknown).le)
    rw [setWidth_append_eq_packWord, decode_packWord hcode, opcodeOf_of_lt_four c code.isLt, hword,
      packWord_toNat_eq_append]
    exact ⟨hi.symm, rfl⟩
  · have hfield := fun c => opcodeField_of_lt c (w := w) (by omega)
    have hmap := fun c => opcodeOf_of_lt_four c (n := w.toNat / 64) (by omega)
    refine ⟨?_, ?_, ?_, ?_⟩
    · simp only [decode, hfield, hmap]
    · rw [decode_opcode, hfield, hmap]
    · rw [decode_dest, destField_val]
    · rw [decode_src, srcField_val]
  · rw [decode_opcode, decode_opcode, opcodeField_of_lt _ hlt, opcodeField_of_lt _ hlt]
    exact ⟨opcodeOf_base_of_four_le (by omega), opcodeOf_ext_of_four_le (by omega) (by omega)⟩
  · obtain ⟨hsame, hlt⟩ := codeOf_shared c c' hi
    have hd := i.dest.isLt
    have hs := i.src.isLt
    refine ⟨by rw [encode, encode, hsame], ?_, ?_⟩
    · rw [encode_toNat]; omega
    · rw [encode_toNat]; rfl

end Sys2Proof.Proofs

/-! ### Words written out as three fields -/

namespace Sys2Proof

/-- Shifting a number and then cutting it to a word is shifting the word. -/
theorem bitVec_ofNat_shiftLeft (w n k : Nat) : BitVec.ofNat w (n <<< k) = BitVec.ofNat w n <<< k := by
  apply BitVec.eq_of_toNat_eq
  simp [Nat.shiftLeft_eq]

/-- Putting the three fields together as numbers gives the packed word (rule R58). -/
theorem ofNat_fields_eq_packWord (n : Nat) (d s : RegIdx) :
    BitVec.ofNat 10 (n <<< 6 ||| d.val <<< 3 ||| s.val) = packWord n d s := by
  rw [packWord, BitVec.ofNat_or, BitVec.ofNat_or, bitVec_ofNat_shiftLeft, bitVec_ofNat_shiftLeft]

/-- A word whose bits above bit 5 are the code of an instruction of the configuration and whose lower bits
are its register fields decodes to that instruction (rules R54, R58). -/
theorem decode_ofNat_fields {c : Cfg} {i : Instr} {code : Nat} (hi : i.wellFormed c = true)
    (hcode : code = codeOf c i.opcode <<< 6) :
    decode c (BitVec.ofNat 10 (code ||| i.dest.val <<< 3 ||| i.src.val)) = i := by
  rw [hcode, ofNat_fields_eq_packWord]
  exact decode_encode hi

end Sys2Proof

/-! ### ADD and SUB -/

namespace Sys2Proof.Machine

variable {c : Config}

/-- ADD completes with the sum in `x[d]` (rule R87). -/
theorem exec_add (d r : RegIdx) (s : CoreState c) :
    exec (.add d r) ⟨c, s⟩ =
      .next ⟨c, (s.advance.setReg d (s.reg d + s.reg r)).emit s.pc (.add d r) .step⟩ := rfl

/-- SUB completes with the difference in `x[d]` (rule R88). -/
theorem exec_sub (d r : RegIdx) (s : CoreState c) :
    exec (.sub d r) ⟨c, s⟩ =
      .next ⟨c, (s.advance.setReg d (s.reg d - s.reg r)).emit s.pc (.sub d r) .step⟩ := rfl

/-- A step that writes one register: beside it only the pc and the trace change, by the advance and the
one event of the step. -/
theorem CoreState.emit_setReg_frame (s : CoreState c) (d : RegIdx) (v : Word c.xlen) (i : Instr)
    (k : TraceKind c.xlen) :
    let t := (s.advance.setReg d v).emit s.pc i k
    s.sameRegsBut d t ∧ t.pc = s.pc + 1 ∧ s.sameMem t ∧ s.sameProgram t ∧ s.samePorts t ∧
      s.traced t i k :=
  ⟨fun j hj => by simp [hj], rfl, fun _ => rfl, rfl, ⟨rfl, rfl⟩, rfl⟩

end Sys2Proof.Machine

/-! ### The obligations on the arithmetic instructions -/

namespace Sys2Proof.Proofs

open Sys2Proof.Machine

/-- Settles O19: the code of ADD is 0 in both layouts, and the step writes the sum to `x[d]` only. -/
theorem addResultAndFrame : Obligations.AddResultAndFrame := by
  refine ⟨fun c d r => ?_, fun c d r s => ⟨_, exec_add d r s, ?_, s.emit_setReg_frame d ..⟩⟩
  · cases c <;> exact decode_ofNat_fields (i := .add d r) rfl rfl
  · rw [CoreState.reg_emit, CoreState.reg_setReg_same, BitVec.toNat_add]

/-- Settles O20: the code of SUB is 1 in both layouts, and the step writes the difference to `x[d]`
only. -/
theorem subResultAndFrame : Obligations.SubResultAndFrame := by
  refine ⟨fun c d r => ?_, fun c d r s => ⟨_, exec_sub d r s, ?_, s.emit_setReg_frame d ..⟩⟩
  · cases c <;> exact decode_ofNat_fields (i := .sub d r) rfl rfl
  · rw [CoreState.reg_emit, CoreState.reg_setReg_same, BitVec.toNat_sub']

end Sys2Proof.Proofs

/-! ### LOAD and STORE at every address -/

namespace Sys2Proof.Machine

variable {c : Config}

/-- LOAD completes with what MemRead gives at `x[r]` in `x[d]` (rule R95). -/
theorem exec_load (d r : RegIdx) (s : CoreState c) :
    exec (.load d r) ⟨c, s⟩ = .next ⟨c, (s.advance.setReg d (memRead s (s.reg r)).1).emit s.pc
      (.load d r) (faultKind (memRead s (s.reg r)).2 (s.reg r))⟩ := rfl

/-- STORE completes with what MemWrite leaves of the advanced core, for the address `x[r]` and the old
`x[d]` (rule R97). -/
theorem exec_store (d r : RegIdx) (s : CoreState c) :
    exec (.store d r) ⟨c, s⟩ = .next ⟨c, (memWrite s.advance (s.reg r) (s.reg d)).1.emit s.pc
      (.store d r) (faultKind (memWrite s.advance (s.reg r) (s.reg d)).2 (s.reg r))⟩ := rfl

/-- A step that writes memory only: beside it the pc and the trace change, by the advance and the one
event of the step. -/
theorem CoreState.emit_memWrite_frame (s : CoreState c) (a v : Word c.xlen) (i : Instr)
    (k : TraceKind c.xlen) :
    let t := (memWrite s.advance a v).1.emit s.pc i k
    s.sameRegs t ∧ t.pc = s.pc + 1 ∧ s.sameProgram t ∧ s.samePorts t ∧ s.traced t i k := by
  refine ⟨memWrite_reg s.advance a v, memWrite_pc s.advance a v, memWrite_prog s.advance a v,
    ⟨memWrite_input s.advance a v, memWrite_output s.advance a v⟩, ?_⟩
  rw [CoreState.traced, CoreState.emit_trace, memWrite_trace, CoreState.advance_trace]
  rfl

/-- After MemWrite in range the addressed cell holds the value (rule R34). -/
theorem memWrite_read_same {s : CoreState c} {a : Word c.xlen} (hm : s.mem.wf = true)
    (ha : inRange c a = true) (v : Word c.xlen) :
    (memWrite s a v).1.mem.read (cellIndex a) = v := by
  rw [memWrite_inRange v ha, CoreState.setCell_mem, Memory.read_write hm, if_pos rfl]

/-- MemWrite leaves every cell alone that its address does not name in range, in any memory. -/
theorem memWrite_read_other (s : CoreState c) (a v : Word c.xlen) {n : Nat}
    (h : ¬ (inRange c a = true ∧ n = cellIndex a)) :
    (memWrite s a v).1.mem.read n = s.mem.read n := by
  rcases memWrite_cases s a v with ⟨ha, hw⟩ | ⟨-, hw⟩ <;> rw [hw]
  exact Memory.read_write_other s.mem v fun hn => h ⟨ha, hn⟩

/-! ### Cells that a run does not store to -/

/-- An instruction that does not store to a cell leaves it as it was (rule R30). -/
theorem exec_keeps_cell (hc : c.valid = true) {i : Instr} {s t : CoreState c} {n : Nat}
    (h : exec i ⟨c, s⟩ = .next ⟨c, t⟩) (hn : ¬ s.storesAt i n) : t.mem.read n = s.mem.read n := by
  cases i with
  | input d r =>
    simp only [exec, execInput] at h
    split at h
    · cases h; rfl
    · rw [complete_eq_next_core.1 h]; rfl
  | store d r =>
    rw [complete_eq_next_core.1 h]
    exact memWrite_read_other _ _ _ fun ⟨ha, hcell⟩ => hn (.inl ⟨d, r, rfl, ha, hcell⟩)
  | call d r =>
    rw [complete_eq_next_core.1 h]
    exact memWrite_read_other _ _ _ fun ⟨_, hcell⟩ =>
      hn (.inr ⟨d, r, rfl, by rw [hcell, linkAddr_cellIndex hc]⟩)
  | _ => rw [complete_eq_next_core.1 h]; rfl

/-- A step whose instruction does not store to a cell leaves it as it was; a halted core stores
nothing. -/
theorem step_keeps_cell (hc : c.valid = true) {s t : CoreState c} {n : Nat}
    (h : step ⟨c, s⟩ = .next ⟨c, t⟩) (hn : ∀ i, s.current = some i → ¬ s.storesAt i n) :
    t.mem.read n = s.mem.read n := by
  rcases step_cases ⟨c, s⟩ with ⟨-, hs⟩ | ⟨i, hi, hs⟩ <;> rw [hs] at h
  · cases h; rfl
  · exact exec_keeps_cell hc h (hn i hi)

/-- A run of `n + 1` steps that ends in a state is a step and a run of `n` steps that ends there. -/
theorem machine_run_succ_cases (M : Host.Core) {n : Nat} {s u : M.State}
    (h : M.run (n + 1) s = .next u) : ∃ t, M.step s = .next t ∧ M.run n t = .next u := by
  rw [Host.Core.run] at h
  split at h
  · next t hstep => exact ⟨t, hstep, h⟩
  · cases h
  · cases h

/-- A cell that no step of a run stores to reads after the run as before it. -/
theorem run_keeps_cell (hc : c.valid = true) {a n : Nat} {s u : CoreState c}
    (hcell : cellUntouched a n ⟨c, s⟩) (h : Host.Core.run core n ⟨c, s⟩ = .next ⟨c, u⟩) :
    u.mem.read a = s.mem.read a := by
  induction n generalizing s with
  | zero => cases h; rfl
  | succ n ih =>
    obtain ⟨hfirst, hrest⟩ := hcell
    obtain ⟨t, hstep, hrun⟩ := machine_run_succ_cases core h
    obtain ⟨t, rfl⟩ := step_keeps_config hstep
    calc u.mem.read a = t.mem.read a := ih (hrest _ hstep) hrun
      _ = s.mem.read a := step_keeps_cell hc hstep hfirst

/-- After a STORE in range the addressed cell holds the stored value. -/
theorem exec_store_read {d r : RegIdx} {s t : CoreState c} (hm : s.mem.wf = true)
    (ha : inRange c (s.reg r) = true) (h : exec (.store d r) ⟨c, s⟩ = .next ⟨c, t⟩) :
    t.mem.read (cellIndex (s.reg r)) = s.reg d := by
  rw [complete_eq_next_core.1 h]
  exact memWrite_read_same (s := s.advance) hm ha (s.reg d)

/-- After a LOAD in range the destination holds the addressed cell. -/
theorem exec_load_reg {d r : RegIdx} {s t : CoreState c} (ha : inRange c (s.reg r) = true)
    (h : exec (.load d r) ⟨c, s⟩ = .next ⟨c, t⟩) :
    t.reg d = s.mem.read (cellIndex (s.reg r)) := by
  rw [complete_eq_next_core.1 h, CoreState.reg_emit, CoreState.reg_setReg_same]
  exact congrArg Prod.fst (memRead_inRange ha)

end Sys2Proof.Machine

/-! ### The obligations on LOAD and STORE -/

namespace Sys2Proof.Proofs

open Sys2Proof.Machine

/-- Settles O21: the code of LOAD is 2 in both layouts, and MemRead's two cases give the loaded value and
the kind of the event. -/
theorem loadResultAndFrame : Obligations.LoadResultAndFrame := by
  refine ⟨fun c d r => ?_, rfl, fun c d r s => ⟨_, exec_load d r s, ?_⟩⟩
  · cases c <;> exact decode_ofNat_fields (i := .load d r) rfl rfl
  obtain ⟨hregs, hpc, hmem, hprog, hports, htrace⟩ := s.emit_setReg_frame d
    (memRead s (s.reg r)).1 (.load d r) (faultKind (memRead s (s.reg r)).2 (s.reg r))
  refine ⟨fun hin => ?_, fun hout => ?_, hregs, hpc, hmem, hprog, hports⟩
  · rw [memRead_inRange ((inRange_iff c _).2 hin)] at htrace ⊢
    exact ⟨CoreState.reg_setReg_same .., htrace⟩
  · rw [memRead_outOfRange ((inRange_eq_false_iff c _).2 hout)] at htrace ⊢
    exact ⟨CoreState.reg_setReg_same .., htrace⟩

/-- Settles O22: the code of STORE is 3 in both layouts, and MemWrite's two cases give the cells and the
kind of the event. -/
theorem storeResultAndFrame : Obligations.StoreResultAndFrame := by
  refine ⟨fun c d r => ?_, fun c d r s hm => ⟨_, exec_store d r s, ?_⟩⟩
  · cases c <;> exact decode_ofNat_fields (i := .store d r) rfl rfl
  obtain ⟨hregs, hpc, hprog, hports, htrace⟩ := s.emit_memWrite_frame (s.reg r) (s.reg d)
    (.store d r) (faultKind (memWrite s.advance (s.reg r) (s.reg d)).2 (s.reg r))
  refine ⟨fun hin => ?_, fun hout => ?_, rfl, hregs, hpc, hprog, hports⟩
  · have ha := (inRange_iff c (s.reg r)).2 hin
    refine ⟨exec_store_read hm ha (exec_store d r s), fun n hn => ?_, ?_⟩
    · exact memWrite_read_other _ _ _ fun ⟨_, hcell⟩ => hn hcell
    · rw [memWrite_inRange _ ha] at htrace ⊢
      exact htrace
  · rw [memWrite_outOfRange _ ((inRange_eq_false_iff c (s.reg r)).2 hout)] at htrace ⊢
    exact ⟨fun _ => rfl, htrace⟩

/-- Settles O25: the STORE puts the value in the cell, the steps between leave the cell alone, and the
LOAD takes the value from it. -/
theorem storeThenLoadReturnsValue : Obligations.StoreThenLoadReturnsValue := by
  intro c a b d e n s t u v hc hm ha hstore hcell hrun haddr hload
  calc v.reg d = u.mem.read (cellIndex (u.reg e)) := exec_load_reg (haddr ▸ ha) hload
    _ = u.mem.read (cellIndex (s.reg b)) := by rw [haddr]
    _ = t.mem.read (cellIndex (s.reg b)) := run_keeps_cell hc hcell hrun
    _ = s.reg a := exec_store_read hm ha hstore

end Sys2Proof.Proofs

/-! ### OUTPUT -/

namespace Sys2Proof

/-- A code stands for a mnemonic of the configuration or for UNKNOWN (rule R53). -/
theorem opcodeOf_mem_mnemonics (c : Cfg) (n : Nat) : opcodeOf c n ∈ Opcode.unknown :: mnemonics c := by
  rw [opcodeOf_eq_mnemonics]
  cases h : (mnemonics c)[n]? with
  | none => exact List.mem_cons_self
  | some op => exact List.mem_cons_of_mem _ (List.mem_of_getElem? h)

/-- No word decodes to a mnemonic that the configuration does not have. -/
theorem decode_opcode_ne {c : Cfg} {op : Opcode} (h : op ∉ Opcode.unknown :: mnemonics c)
    (w : ProgWord) : (decode c w).opcode ≠ op := by
  rw [decode_opcode]
  exact ne_of_mem_of_not_mem (opcodeOf_mem_mnemonics c _) h

end Sys2Proof

namespace Sys2Proof.Machine

variable {c : Config}

/-- OUTPUT completes with `x[d]` appended to the output stream (rule R107). -/
theorem exec_output (d r : RegIdx) (s : CoreState c) :
    exec (.output d r) ⟨c, s⟩ =
      .next ⟨c, (s.advance.out (s.reg d)).emit s.pc (.output d r) .step⟩ := rfl

/-- A step that appends to the output stream only: beside it the pc and the trace change, by the advance
and the one event of the step. -/
theorem CoreState.emit_out_frame (s : CoreState c) (v : Word c.xlen) (i : Instr)
    (k : TraceKind c.xlen) :
    let t := (s.advance.out v).emit s.pc i k
    t.output = s.output ++ [v] ∧ t.input = s.input ∧ s.sameRegs t ∧ t.pc = s.pc + 1 ∧ s.sameMem t ∧
      s.sameProgram t ∧ s.traced t i k :=
  ⟨rfl, rfl, fun _ => rfl, rfl, fun _ => rfl, rfl, rfl⟩

end Sys2Proof.Machine

/-! ### The obligation on OUTPUT -/

namespace Sys2Proof.Proofs

open Sys2Proof.Machine

/-- Settles O28: the code of OUTPUT is 5 in EXT, OUTPUT is not among the mnemonics of BASE, and the step
appends `x[d]` to the output stream. -/
theorem outputAppendsAndFrame : Obligations.OutputAppendsAndFrame := by
  refine ⟨fun d r => ?_, fun w => ?_, fun c d r s => ⟨_, exec_output d r s, s.emit_out_frame ..⟩⟩
  · exact decode_ofNat_fields (i := .output d r) rfl rfl
  · exact decode_opcode_ne (by decide) w

end Sys2Proof.Proofs

/-! ### JUMP, CALL and RET -/

namespace Sys2Proof.Machine

variable {c : Config}

/-- JUMP completes with `x[r]` in the pc (rule R113). -/
theorem exec_jump (d r : RegIdx) (s : CoreState c) :
    exec (.jump d r) ⟨c, s⟩ =
      .next ⟨c, (s.advance.setPc (s.reg r)).emit s.pc (.jump d r) .step⟩ := rfl

/-- CALL completes with what MemWrite of the advanced pc at LINK_ADDR leaves, and `x[r]` in the pc (rule
R116). -/
theorem exec_call (d r : RegIdx) (s : CoreState c) :
    exec (.call d r) ⟨c, s⟩ =
      .next ⟨c, ((memWrite s.advance (linkAddr c) (s.pc + 1)).1.setPc (s.reg r)).emit s.pc
        (.call d r) .step⟩ := rfl

/-- In a valid configuration RET completes with the link cell's value in the pc (rule R118). -/
theorem exec_ret (hc : c.valid = true) (d r : RegIdx) (s : CoreState c) :
    exec (.ret d r) ⟨c, s⟩ =
      .next ⟨c, (s.advance.setPc (s.mem.read (c.memSize - 1))).emit s.pc (.ret d r) .step⟩ := by
  rw [exec, execRet, complete, memRead_linkAddr hc]

/-- A step that sets the pc only: beside it the trace changes, by the one event of the step. -/
theorem CoreState.emit_setPc_frame (s : CoreState c) (v : Word c.xlen) (i : Instr)
    (k : TraceKind c.xlen) :
    let t := (s.advance.setPc v).emit s.pc i k
    s.sameRegs t ∧ s.sameMem t ∧ s.sameProgram t ∧ s.samePorts t ∧ s.traced t i k :=
  ⟨fun _ => rfl, fun _ => rfl, rfl, ⟨rfl, rfl⟩, rfl⟩

/-- A step that writes memory and sets the pc: beside them the trace changes, by the one event of the
step. -/
theorem CoreState.emit_memWrite_setPc_frame (s : CoreState c) (a v p : Word c.xlen) (i : Instr)
    (k : TraceKind c.xlen) :
    let t := ((memWrite s.advance a v).1.setPc p).emit s.pc i k
    s.sameRegs t ∧ s.sameProgram t ∧ s.samePorts t ∧ s.traced t i k := by
  refine ⟨memWrite_reg s.advance a v, memWrite_prog s.advance a v,
    ⟨memWrite_input s.advance a v, memWrite_output s.advance a v⟩, ?_⟩
  rw [CoreState.traced, CoreState.emit_trace, CoreState.setPc_trace, memWrite_trace,
    CoreState.advance_trace]
  rfl

/-- MemWrite keeps the canonical form of the memory. -/
theorem memWrite_wf {s : CoreState c} (hm : s.mem.wf = true) (a v : Word c.xlen) :
    (memWrite s a v).1.mem.wf = true := by
  rcases memWrite_cases s a v with ⟨-, hw⟩ | ⟨-, hw⟩ <;> rw [hw]
  · exact Memory.write_wf _ v hm
  · exact hm

/-- Every instruction keeps the canonical form of the memory. -/
theorem exec_keeps_wf {i : Instr} {s t : CoreState c} (hm : s.mem.wf = true)
    (h : exec i ⟨c, s⟩ = .next ⟨c, t⟩) : t.mem.wf = true := by
  cases i with
  | input d r =>
    simp only [exec, execInput] at h
    split at h
    · cases h; exact hm
    · rw [complete_eq_next_core.1 h]; exact hm
  | store d r => rw [complete_eq_next_core.1 h]; exact memWrite_wf (s := s.advance) hm _ _
  | call d r => rw [complete_eq_next_core.1 h]; exact memWrite_wf (s := s.advance) hm _ _
  | _ => rw [complete_eq_next_core.1 h]; exact hm

/-- After a CALL the link cell holds the index of the CALL plus one (rule R116). -/
theorem exec_call_link (hc : c.valid = true) {d r : RegIdx} {s t : CoreState c}
    (hm : s.mem.wf = true) (h : exec (.call d r) ⟨c, s⟩ = .next ⟨c, t⟩) :
    t.mem.read (c.memSize - 1) = s.pc + 1 := by
  rw [complete_eq_next_core.1 h, ← linkAddr_cellIndex hc]
  exact memWrite_read_same (s := s.advance) hm (linkAddr_inRange hc) _

/-- A CALL stores to no cell but the link cell (rule R30). -/
theorem CoreState.not_storesAt_call (s : CoreState c) (d r : RegIdx) {n : Nat}
    (hn : n ≠ c.memSize - 1) : ¬ s.storesAt (.call d r) n := by
  rintro (⟨_, _, hi, -⟩ | ⟨_, _, -, hcell⟩)
  · cases hi
  · exact hn hcell

/-- A RET goes to the link cell's value (rule R118). -/
theorem exec_ret_pc (hc : c.valid = true) {d r : RegIdx} {s t : CoreState c}
    (h : exec (.ret d r) ⟨c, s⟩ = .next ⟨c, t⟩) : t.pc = s.mem.read (c.memSize - 1) :=
  exec_next_pc hc h fun ⟨hop, _⟩ => nomatch hop

/-- A RET leaves the memory as it was, the link cell too (rule R118). -/
theorem exec_ret_mem {d r : RegIdx} {s t : CoreState c}
    (h : exec (.ret d r) ⟨c, s⟩ = .next ⟨c, t⟩) : t.mem = s.mem := by
  rw [complete_eq_next_core.1 h]; rfl

end Sys2Proof.Machine

/-! ### The obligations on JUMP, CALL and RET -/

namespace Sys2Proof.Proofs

open Sys2Proof.Machine

/-- Settles O31: the code of JUMP is 6 in EXT, JUMP is not among the mnemonics of BASE, and the step sets
the pc to `x[s]`, which is where the halt test then looks. -/
theorem jumpResultAndFrame : Obligations.JumpResultAndFrame := by
  refine ⟨fun d r => ?_, fun w => ?_, fun c d r s =>
    ⟨_, exec_jump d r s, rfl, CoreState.halted_iff _, s.emit_setPc_frame ..⟩⟩
  · exact decode_ofNat_fields (i := .jump d r) rfl rfl
  · exact decode_opcode_ne (by decide) w

/-- Settles O32: the code of CALL is 7 in EXT, CALL is not among the mnemonics of BASE, and LINK_ADDR is
in range, so that MemWrite puts the advanced pc in the link cell and changes no other cell. -/
theorem callResultAndFrame : Obligations.CallResultAndFrame := by
  refine ⟨fun d r => ?_, fun w => ?_, fun c d r s hc hm => ?_⟩
  · exact decode_ofNat_fields (i := .call d r) rfl rfl
  · exact decode_opcode_ne (by decide) w
  · have hcall := exec_call d r s
    refine ⟨_, hcall, rfl, linkAddr_cellIndex hc, ?_, ?_, s.emit_memWrite_setPc_frame ..⟩ <;>
      rw [linkAddr_cellIndex hc]
    · exact exec_call_link hc hm hcall
    · exact fun n hn => exec_keeps_cell hc hcall (s.not_storesAt_call d r hn)

/-- Settles O33: the code of RET is 8 in EXT, RET is not among the mnemonics of BASE, and LINK_ADDR is in
range, so that the pc is set to the link cell's value. -/
theorem retResultAndFrame : Obligations.RetResultAndFrame := by
  refine ⟨fun d r => ?_, fun w => ?_, fun c d r s hc =>
    ⟨_, exec_ret hc d r s, rfl, s.emit_setPc_frame ..⟩⟩
  · exact decode_ofNat_fields (i := .ret d r) rfl rfl
  · exact decode_opcode_ne (by decide) w

/-- Settles O36: the second CALL overwrites the link cell, and the first RET keeps it for the second. -/
theorem nestedCallOverwritesReturn : Obligations.NestedCallOverwritesReturn := by
  intro c d r d' r' e f e' f' s s₁ s₂ s₃ s₄ hc hm hcall hcall' hret hret'
  have hlink := exec_call_link hc (exec_keeps_wf hm hcall) hcall'
  constructor
  · rw [exec_ret_pc hc hret, hlink]
  · rw [exec_ret_pc hc hret', exec_ret_mem hret, hlink]

/-- Settles O37: the run keeps the 0 in the link cell, and RET changes nothing but the pc and the
trace. -/
theorem retWithoutCallRestarts : Obligations.RetWithoutCallRestarts := by
  refine ⟨fun c => rfl, fun c n s u d r hc hzero hcell hrun => ?_⟩
  have hlink : u.mem.read (c.memSize - 1) = 0 := by rw [run_keeps_cell hc hcell hrun, hzero]
  obtain ⟨hregs, hmem, hprog, hports, -⟩ := u.emit_setPc_frame _ (.ret d r) .step
  exact ⟨hlink, _, exec_ret hc d r u, hlink, hregs, hmem, hprog, hports⟩

end Sys2Proof.Proofs

/-! ### UNKNOWN -/

namespace Sys2Proof

/-- The canonical UNKNOWN code is the first past the mnemonics of the configuration (rules R53, R58). -/
theorem mnemonics_length : ∀ c : Cfg, (mnemonics c).length = codeOf c .unknown
  | .ext | .base => rfl

/-- From the canonical UNKNOWN code on every code is unassigned (rule R53). -/
theorem opcodeOf_of_codeOf_unknown_le {c : Cfg} {n : Nat} (h : codeOf c .unknown ≤ n) :
    opcodeOf c n = .unknown := by
  rw [← mnemonics_length] at h
  rw [opcodeOf_eq_mnemonics, List.getElem?_eq_none h, Option.getD_none]

/-- A word whose bits above bit 5 are an unassigned code decodes to UNKNOWN, with its lower bits as the
register fields (rules R54, R125). -/
theorem decode_ofNat_unassigned {c : Cfg} {n : Nat} (hle : codeOf c .unknown ≤ n)
    (hlt : n < 2 ^ opw c) (d s : RegIdx) :
    decode c (BitVec.ofNat 10 (n <<< 6 ||| d.val <<< 3 ||| s.val)) = .unknown d s := by
  rw [ofNat_fields_eq_packWord, decode_packWord hlt, opcodeOf_of_codeOf_unknown_le hle]
  rfl

end Sys2Proof

namespace Sys2Proof.Machine

variable {c : Config}

/-- UNKNOWN completes with nothing but the advance (rule R125). -/
theorem exec_unknown (d r : RegIdx) (s : CoreState c) :
    exec (.unknown d r) ⟨c, s⟩ = .next ⟨c, s.advance.emit s.pc (.unknown d r) .step⟩ := rfl

/-- A step that only advances: beside the pc the trace changes, by the one event of the step. -/
theorem CoreState.emit_advance_frame (s : CoreState c) (i : Instr) (k : TraceKind c.xlen) :
    let t := s.advance.emit s.pc i k
    t.pc = s.pc + 1 ∧ s.sameRegs t ∧ s.sameMem t ∧ s.sameProgram t ∧ s.samePorts t ∧
      s.traced t i k :=
  ⟨rfl, s.emit_setPc_frame (s.pc + 1) i k⟩

end Sys2Proof.Machine

/-! ### The obligation on UNKNOWN -/

namespace Sys2Proof.Proofs

open Sys2Proof.Machine

/-- Settles O34: the codes from 9 in EXT and from 4 in BASE are past the mnemonics, and the step only
advances. -/
theorem unknownResultAndFrame : Obligations.UnknownResultAndFrame := by
  refine ⟨fun n d r hle hlt => ?_, fun n d r hle hlt => ?_, ⟨rfl, rfl⟩, fun c d r s =>
    ⟨_, exec_unknown d r s, s.emit_advance_frame ..⟩⟩
  · exact decode_ofNat_unassigned hle (Nat.lt_succ_of_le hlt) d r
  · exact decode_ofNat_unassigned hle (Nat.lt_succ_of_le hlt) d r

end Sys2Proof.Proofs

/-! ### What every instruction does, once -/

namespace Sys2Proof.Machine

variable {c : Config}

/-- The core after the advance and the writes of a completed instruction, before the step's event (rule
R70, phases 1 to 4). -/
def CoreState.afterWrites (s : CoreState c) : Instr → CoreState c
  | .add d r => s.advance.setReg d (s.reg d + s.reg r)
  | .sub d r => s.advance.setReg d (s.reg d - s.reg r)
  | .load d r => s.advance.setReg d (memRead s (s.reg r)).1
  | .store d r => (memWrite s.advance (s.reg r) (s.reg d)).1
  | .input d _ => (s.advance.setInput s.input.tail).setReg d (s.input.headD 0)
  | .output d _ => s.advance.out (s.reg d)
  | .jump _ r => s.advance.setPc (s.reg r)
  | .call _ r => (memWrite s.advance (linkAddr c) (s.pc + 1)).1.setPc (s.reg r)
  | .ret _ _ => s.advance.setPc (memRead s (linkAddr c)).1
  | .unknown _ _ => s.advance

/-- The kind of a completed instruction's event (rules R78, R131). -/
def CoreState.eventKind (s : CoreState c) : Instr → TraceKind c.xlen
  | .load _ r | .store _ r => faultKind (!inRange c (s.reg r)) (s.reg r)
  | .add _ _ | .sub _ _ | .input _ _ | .output _ _ | .jump _ _ | .call _ _ | .ret _ _
  | .unknown _ _ => .step

/-- The next state of a completed instruction: its writes and its one event (rule R70, phase 5). -/
def CoreState.completed (s : CoreState c) (i : Instr) : CoreState c :=
  (s.afterWrites i).emit s.pc i (s.eventKind i)

/-- The instruction does not complete: it is an INPUT, and no value waits (rules R77, R105). -/
def CoreState.stalls (s : CoreState c) (i : Instr) : Prop := i.opcode = .input ∧ s.input = []

/-- An INPUT with no value answers the same state (log 7). -/
theorem exec_of_stalls {s : CoreState c} {i : Instr} (h : s.stalls i) :
    exec i ⟨c, s⟩ = .next ⟨c, s⟩ := by
  obtain ⟨hop, hin⟩ := h
  cases i with
  | input d r => simp only [exec, execInput, hin]
  | _ => cases hop

/-- INPUT with a value takes the head of the stream (rule R105). -/
theorem exec_input {s : CoreState c} {v : Word c.xlen} {rest : List (Word c.xlen)}
    (h : s.input = v :: rest) (d r : RegIdx) :
    exec (.input d r) ⟨c, s⟩ =
      .next ⟨c, ((s.advance.setInput rest).setReg d v).emit s.pc (.input d r) .step⟩ := by
  simp only [exec, execInput, h, complete]

/-- Every other instruction completes. -/
theorem exec_of_not_stalls {s : CoreState c} {i : Instr} (h : ¬ s.stalls i) :
    exec i ⟨c, s⟩ = .next ⟨c, s.completed i⟩ := by
  cases i with
  | input d r =>
    cases hin : s.input with
    | nil => exact absurd ⟨rfl, hin⟩ h
    | cons v rest =>
      rw [exec_input hin, CoreState.completed, CoreState.afterWrites, hin]
      rfl
  | load d r => rw [exec_load, memRead_fault]; rfl
  | store d r => rw [exec_store, memWrite_fault]; rfl
  | _ => rfl

/-- `exec` answers a next state of the same configuration: the same one for an INPUT with no value, and
else the completed one. -/
theorem exec_next_iff {s t : CoreState c} {i : Instr} :
    exec i ⟨c, s⟩ = .next ⟨c, t⟩ ↔ (s.stalls i ∧ t = s) ∨ (¬ s.stalls i ∧ t = s.completed i) := by
  by_cases h : s.stalls i
  · simp [exec_of_stalls h, h, eq_comm]
  · simp [exec_of_not_stalls h, h, eq_comm]

/-- Where a completed instruction stores to memory, it stores to an existing cell: STORE in range, and
CALL at LINK_ADDR (rule R30). -/
theorem CoreState.afterWrites_mem_cases (s : CoreState c) (i : Instr) :
    (s.afterWrites i).mem = s.mem ∨
      ∃ a v, inRange c a = true ∧ (s.afterWrites i).mem = s.mem.write (cellIndex a) v := by
  cases i with
  | store d r =>
    rcases memWrite_cases s.advance (s.reg r) (s.reg d) with ⟨ha, hw⟩ | ⟨-, hw⟩ <;>
      rw [CoreState.afterWrites, hw]
    · exact .inr ⟨_, _, ha, rfl⟩
    · exact .inl rfl
  | call d r =>
    rcases memWrite_cases s.advance (linkAddr c) (s.pc + 1) with ⟨ha, hw⟩ | ⟨-, hw⟩ <;>
      rw [CoreState.afterWrites, hw]
    · exact .inr ⟨_, _, ha, rfl⟩
    · exact .inl rfl
  | _ => exact .inl rfl

/-- No instruction writes the program store (rules R22, R41). -/
@[simp] theorem CoreState.afterWrites_prog (s : CoreState c) (i : Instr) :
    (s.afterWrites i).prog = s.prog := by
  cases i with
  | store | call => simp [CoreState.afterWrites]
  | _ => rfl

/-- A completed instruction keeps the invariant: the program stays, and memory stays or gets a value in
an existing cell. -/
theorem CoreState.completed_inv {s : CoreState c} (h : s.inv = true) (i : Instr) :
    (s.completed i).inv = true := by
  obtain ⟨hc, hwf, hwithin, hlen, hfits⟩ := s.inv_iff.1 h
  rw [CoreState.inv_iff, CoreState.completed, CoreState.emit_prog, CoreState.emit_mem,
    CoreState.afterWrites_prog]
  rcases s.afterWrites_mem_cases i with hmem | ⟨a, v, ha, hmem⟩ <;> rw [hmem]
  · exact ⟨hc, hwf, hwithin, hlen, hfits⟩
  · exact ⟨hc, Memory.write_wf _ v hwf, Memory.write_within v (cellIndex_lt ha) hwithin, hlen, hfits⟩

/-- Every instruction keeps the invariant. -/
theorem exec_keeps_inv {i : Instr} {s t : CoreState c} (hs : s.inv = true)
    (h : exec i ⟨c, s⟩ = .next ⟨c, t⟩) : t.inv = true := by
  rcases exec_next_iff.1 h with ⟨-, rfl⟩ | ⟨-, rfl⟩
  · exact hs
  · exact CoreState.completed_inv hs i

/-- A core with a current instruction is not halted (rule R156). -/
theorem CoreState.not_halted_of_current {s : CoreState c} {i : Instr} (h : s.current = some i) :
    s.halted = false := by
  rw [← Bool.not_eq_true, ← s.current_eq_none_iff, h]
  exact Option.some_ne_none i

/-- A core waits when its current instruction stalls (rules R70, R146). -/
theorem CoreState.waiting_iff (s : CoreState c) :
    s.waiting = true ↔ ∃ i, s.current = some i ∧ s.stalls i := by
  unfold CoreState.waiting
  split
  · next d r hi => simp [hi, CoreState.stalls, Instr.opcode]
  · next hno =>
    constructor
    · intro h; cases h
    · rintro ⟨i, hi, hop, -⟩
      cases i with
      | input d r => exact absurd hi (hno d r)
      | _ => cases hop

/-- A step of the core: enabled, it completes the current instruction; else it answers the same state,
on a halted core by rule R158 and on a waiting one by log 7. -/
theorem step_enabled_cases (s : CoreState c) :
    (s.enabled = true ∧ ∃ i, s.current = some i ∧ ¬ s.stalls i ∧
      step ⟨c, s⟩ = .next ⟨c, s.completed i⟩) ∨
    (s.enabled = false ∧ step ⟨c, s⟩ = .next ⟨c, s⟩) := by
  rcases step_cases ⟨c, s⟩ with ⟨hnone, hstep⟩ | ⟨i, hi, hstep⟩
  · exact .inr ⟨by simp [CoreState.enabled, s.current_eq_none_iff.1 hnone], hstep⟩
  · by_cases hstall : s.stalls i
    · have hwait : s.waiting = true := s.waiting_iff.2 ⟨i, hi, hstall⟩
      exact .inr ⟨by simp [CoreState.enabled, hwait], hstep.trans (exec_of_stalls hstall)⟩
    · have hgo : s.waiting = false := by
        rw [← Bool.not_eq_true, s.waiting_iff]
        rintro ⟨j, hj, hstall'⟩
        cases hi.symm.trans hj
        exact hstall hstall'
      exact .inl ⟨by simp [CoreState.enabled, CoreState.not_halted_of_current hi, hgo], i, hi, hstall,
        hstep.trans (exec_of_not_stalls hstall)⟩

/-- A step that is not enabled answers the same state. -/
theorem step_of_not_enabled {s : CoreState c} (h : s.enabled = false) :
    step ⟨c, s⟩ = .next ⟨c, s⟩ := by
  rcases step_enabled_cases s with ⟨hs, -⟩ | ⟨-, hstep⟩
  · cases h.symm.trans hs
  · exact hstep

/-- Every step keeps the invariant. -/
theorem step_keeps_inv {s t : State} (hs : s.core.inv = true) (h : step s = .next t) :
    t.core.inv = true := by
  rcases step_enabled_cases s.core with ⟨-, i, -, -, hstep⟩ | ⟨-, hstep⟩ <;>
    cases hstep.symm.trans h
  · exact CoreState.completed_inv hs i
  · exact hs

end Sys2Proof.Machine

/-! ### The obligation on the invariant of a step -/

namespace Sys2Proof.Proofs

open Sys2Proof.Machine

/-- Settles O45: a step is nothing or an instruction, whose writes to memory are in range. -/
theorem stepKeepsInv : Obligations.StepKeepsInv :=
  fun _ _ => step_keeps_inv

end Sys2Proof.Proofs

/-! ### The event of a step -/

namespace Sys2Proof.Machine

variable {c : Config}

/-- No instruction's writes touch the trace; the event is added at the end of the step (rule R78). -/
@[simp] theorem CoreState.afterWrites_trace (s : CoreState c) (i : Instr) :
    (s.afterWrites i).trace = s.trace := by
  cases i with
  | store | call => simp [CoreState.afterWrites]
  | _ => rfl

/-- A completed instruction appends its one event (rule R78). -/
theorem CoreState.completed_traced (s : CoreState c) (i : Instr) :
    s.traced (s.completed i) i (s.eventKind i) := by
  rw [CoreState.traced, CoreState.completed, CoreState.emit_trace, CoreState.afterWrites_trace]
  rfl

/-- The event a step appends has one kind. -/
theorem CoreState.traced_kind_unique {s t : CoreState c} {i : Instr} {k k' : TraceKind c.xlen}
    (h : s.traced t i k) (h' : s.traced t i k') : k = k' := by
  have hev := List.append_cancel_left (h.symm.trans h')
  injection hev with hhead
  injection hhead

/-- An unchanged state has no new event. -/
theorem CoreState.not_traced_self (s : CoreState c) (i : Instr) (k : TraceKind c.xlen) :
    ¬ s.traced s i k := by
  simp [CoreState.traced]

/-- A completed instruction's event is a STEP, or a MEMFAULT with the value of its source register. -/
theorem CoreState.eventKind_cases (s : CoreState c) (i : Instr) :
    s.eventKind i = .step ∨ s.eventKind i = .memFault (s.reg i.src) := by
  cases i with
  | load d r | store d r => cases h : inRange c (s.reg r) <;> simp [CoreState.eventKind, Instr.src, h]
  | _ => exact .inl rfl

/-- The kind is MEMFAULT exactly where the bounds test fails (rule R130). -/
theorem faultKind_eq_memFault_iff {xlen : Nat} (b : Bool) (a a' : Word xlen) :
    faultKind b a = .memFault a' ↔ b = true ∧ a' = a := by
  cases b <;> simp [eq_comm]

/-- The event is a MEMFAULT exactly for a LOAD or STORE whose address is out of range (rule R131). -/
theorem CoreState.eventKind_eq_memFault_iff (s : CoreState c) (i : Instr) (a : Word c.xlen) :
    s.eventKind i = .memFault a ↔
      (i.opcode = .load ∨ i.opcode = .store) ∧ a = s.reg i.src ∧ inRange c a = false := by
  cases i with
  | load d r | store d r =>
    rw [CoreState.eventKind, faultKind_eq_memFault_iff, Bool.not_eq_true']
    constructor
    · rintro ⟨hout, rfl⟩; exact ⟨by simp [Instr.opcode], rfl, hout⟩
    · rintro ⟨-, rfl, hout⟩; exact ⟨hout, rfl⟩
  | _ => simp [CoreState.eventKind, Instr.opcode]

/-! ### Steps and runs -/

/-- Every step answers a next state of the same configuration (rule R81). -/
theorem step_total (s : CoreState c) : ∃ t : CoreState c, step ⟨c, s⟩ = .next ⟨c, t⟩ := by
  rcases step_enabled_cases s with ⟨-, i, -, -, hstep⟩ | ⟨-, hstep⟩ <;> exact ⟨_, hstep⟩

/-- The word at the pc is the current instruction's (rules R71, R73). -/
theorem CoreState.current_of_word {s : CoreState c} {w : ProgWord}
    (h : s.prog[s.pc.toNat]? = some w) : s.current = some (decode c.cfg w) := by
  rw [CoreState.current, CoreState.fetch, h, Option.map_some]

/-- A step whose current instruction is `i` is `exec` of `i` (rule R70). -/
theorem step_of_current {s : State} {i : Instr} (h : s.core.current = some i) :
    step s = exec i s := by
  rw [step, h]

/-- A step of a halted core answers the same state (rule R158). -/
theorem step_of_halted {s : State} (h : s.core.halted = true) : step s = .next s := by
  rw [step, s.core.current_eq_none_iff.2 h]

/-- So does a run. -/
theorem run_of_halted {s : State} (h : s.core.halted = true) (n : Nat) : run n s = .next s := by
  cases n with
  | zero => rfl
  | succ n => rw [run, if_pos h]

/-- The run loop that tests for halt is the plain repetition of steps: a halted core repeats its state
(rule R80). -/
theorem run_eq_core_run (n : Nat) (s : State) : run n s = Host.Core.run core n s := by
  induction n generalizing s with
  | zero => rfl
  | succ n ih =>
    by_cases hhalt : s.core.halted = true
    · exact (run_of_halted hhalt _).trans (core_run_fixed (step_of_halted hhalt) _).symm
    · obtain ⟨t, hstep⟩ := step_total s.core
      rw [run, if_neg hhalt, hstep, core_run_succ n hstep]
      exact ih _

/-- An enabled step is one fetch cycle (rule R79). -/
theorem fetchCycles_succ_of_enabled {s t : State} (hs : s.core.enabled = true)
    (hstep : step s = .next t) (n : Nat) : fetchCycles (n + 1) s = fetchCycles n t + 1 := by
  rw [fetchCycles, if_pos hs, hstep]

/-- A core that is not enabled performs no fetch cycle. -/
theorem fetchCycles_of_not_enabled {s : State} (hs : s.core.enabled = false) (n : Nat) :
    fetchCycles n s = 0 := by
  cases n with
  | zero => rfl
  | succ n => rw [fetchCycles, hs, if_neg Bool.false_ne_true]

/-- A run's trace grows by one event for each fetch cycle (rule R79). -/
theorem core_run_trace_length {n : Nat} {s t : State} (h : Host.Core.run core n s = .next t) :
    t.core.trace.length = s.core.trace.length + fetchCycles n s := by
  induction n generalizing s with
  | zero => cases h; rfl
  | succ n ih =>
    rcases step_enabled_cases s.core with ⟨hs, i, -, -, hstep⟩ | ⟨hs, hstep⟩
    · rw [core_run_succ n hstep] at h
      rw [ih h, fetchCycles_succ_of_enabled hs hstep, s.core.completed_traced i, List.length_append,
        List.length_singleton]
      omega
    · rw [core_run_fixed hstep] at h
      cases h
      rw [fetchCycles_of_not_enabled hs]
      rfl

end Sys2Proof.Machine

/-! ### The obligations on steps, runs and their events -/

namespace Sys2Proof.Proofs

open Sys2Proof.Machine

/-- Settles O7: the word at the pc decodes to the current instruction. -/
theorem stepRunsDecodedInstruction : Obligations.StepRunsDecodedInstruction :=
  fun _ _ hw => step_of_current (CoreState.current_of_word hw)

/-- Settles O9: the halt test is the comparison of the pc with PROGLEN, and a halted core fetches
nothing. -/
theorem haltedCoreDoesNothing : Obligations.HaltedCoreDoesNothing :=
  fun s => ⟨s.core.halted_iff, fun h => ⟨step_of_halted h, run_of_halted h⟩⟩

/-- Settles O10: no instruction faults or refuses. -/
theorem everyStepAnswersNext : Obligations.EveryStepAnswersNext := by
  intro s
  obtain ⟨t, hstep⟩ := step_total s.core
  exact ⟨_, hstep⟩

/-- Settles O11: an enabled step is the completed current instruction, with its one event. -/
theorem oneTraceEventPerFetchCycle : Obligations.OneTraceEventPerFetchCycle := by
  intro c s t h
  rcases step_enabled_cases s with ⟨hs, i, hi, -, hstep⟩ | ⟨hs, hstep⟩ <;>
    cases hstep.symm.trans h <;> rw [hs]
  · obtain ⟨w, hw, rfl⟩ := (s.current_eq_some_iff i).1 hi
    exact ⟨fun _ => ⟨w, _, hw, s.completed_traced _⟩, nofun⟩
  · exact ⟨nofun, fun _ => rfl⟩

/-- Settles O12: by induction on the number of steps; a core that is not enabled stays so. -/
theorem traceCountEqualsFetchCycles : Obligations.TraceCountEqualsFetchCycles :=
  fun _ _ _ => core_run_trace_length

/-- Settles O13: the kind of the event is that of the completed instruction. -/
theorem memFaultOnlyOutOfRange : Obligations.MemFaultOnlyOutOfRange := by
  intro c i s t k h htrace a
  rcases exec_next_iff.1 h with ⟨-, rfl⟩ | ⟨-, rfl⟩
  · exact absurd htrace (CoreState.not_traced_self _ _ _)
  · rw [← CoreState.traced_kind_unique (s.completed_traced i) htrace,
      CoreState.eventKind_eq_memFault_iff, inRange_eq_false_iff]

/-- Settles O16: a halted core repeats its state, and else both runs take the same step. -/
theorem runEqualsRepeatedSteps : Obligations.RunEqualsRepeatedSteps :=
  run_eq_core_run

end Sys2Proof.Proofs

/-! ### What an instruction may write -/

namespace Sys2Proof.Machine

variable {c : Config}

/-- The values a completed instruction sends to the output port (rules R107, R108). -/
def CoreState.outputOf (s : CoreState c) : Instr → List (Word c.xlen)
  | .output d _ => [s.reg d]
  | .add _ _ | .sub _ _ | .load _ _ | .store _ _ | .input _ _ | .jump _ _ | .call _ _ | .ret _ _
  | .unknown _ _ => []

/-- Only OUTPUT appends to the output stream (rule R108). -/
@[simp] theorem CoreState.afterWrites_output (s : CoreState c) (i : Instr) :
    (s.afterWrites i).output = s.output ++ s.outputOf i := by
  cases i with
  | output d r => rfl
  | store | call => simp [CoreState.afterWrites, CoreState.outputOf]
  | _ => exact (List.append_nil _).symm

/-- Only INPUT takes from the input stream, one value (rule R106). -/
theorem CoreState.afterWrites_input (s : CoreState c) (i : Instr) :
    (s.afterWrites i).input = if i.opcode = .input then s.input.tail else s.input := by
  cases i with
  | store | call => simp [CoreState.afterWrites, Instr.opcode]
  | _ => rfl

/-- Only ADD, SUB, LOAD and INPUT write a register, and only their destination (rule R14). -/
theorem CoreState.afterWrites_reg_cases (s : CoreState c) (i : Instr) (j : RegIdx) :
    (s.afterWrites i).reg j = s.reg j ∨
      (j = i.dest ∧ (i.opcode = .add ∨ i.opcode = .sub ∨ i.opcode = .load ∨ i.opcode = .input)) := by
  cases i with
  | add d r | sub d r | load d r | input d r =>
    by_cases hj : j = d
    · exact .inr ⟨hj, by simp [Instr.opcode]⟩
    · exact .inl (by simp [CoreState.afterWrites, hj])
  | store | call => exact .inl (by simp [CoreState.afterWrites])
  | output | jump | ret | unknown => exact .inl rfl

/-- A completed instruction leaves `nextPc` in the pc (rule R16). -/
theorem CoreState.completed_pc (hc : c.valid = true) {s : CoreState c} {i : Instr}
    (h : ¬ s.stalls i) : (s.completed i).pc = s.nextPc i :=
  exec_next_pc hc (exec_of_not_stalls h) h

/-! ### The input stream before and after a step -/

/-- A step that takes one input value into a register: beside them the pc and the trace change, by the
advance and the one event of the step. -/
theorem CoreState.emit_setInput_setReg_frame (s : CoreState c) (rest : List (Word c.xlen))
    (d : RegIdx) (v : Word c.xlen) (i : Instr) (k : TraceKind c.xlen) :
    let t := ((s.advance.setInput rest).setReg d v).emit s.pc i k
    t.reg d = v ∧ t.input = rest ∧ s.sameRegsBut d t ∧ t.pc = s.pc + 1 ∧ s.sameMem t ∧
      s.sameProgram t ∧ t.output = s.output ∧ s.traced t i k :=
  ⟨by simp, rfl, fun j hj => by simp [hj], rfl, fun _ => rfl, rfl, rfl, rfl⟩

/-- What stands at the end of the input stream does not matter to the instruction at the pc. -/
@[simp] theorem CoreState.supply_current (s : CoreState c) (v : Word c.xlen) :
    (s.supply v).current = s.current := rfl

/-- With a value supplied no instruction stalls. -/
theorem CoreState.supply_not_stalls (s : CoreState c) (v : Word c.xlen) (i : Instr) :
    ¬ (s.supply v).stalls i := by
  simp [CoreState.stalls]

/-- MemWrite leaves the input stream alone, whatever stands in it. -/
theorem memWrite_supply (s : CoreState c) (a w v : Word c.xlen) :
    (memWrite (s.supply v) a w).1 = (memWrite s a w).1.supply v := by
  unfold memWrite
  split <;> rfl

/-- A value offered before an instruction that completes is still the last one after it (rule R106). -/
theorem CoreState.afterWrites_supply {s : CoreState c} {i : Instr} (h : ¬ s.stalls i)
    (v : Word c.xlen) : (s.supply v).afterWrites i = (s.afterWrites i).supply v := by
  cases i with
  | input d r =>
    cases hin : s.input with
    | nil => exact absurd ⟨rfl, hin⟩ h
    | cons u rest =>
      rw [CoreState.afterWrites, CoreState.afterWrites, CoreState.supply_input, hin]
      rfl
  | store d r => exact memWrite_supply s.advance (s.reg r) (s.reg d) v
  | call d r =>
    exact congrArg (·.setPc (s.reg r)) (memWrite_supply s.advance (linkAddr c) (s.pc + 1) v)
  | _ => rfl

/-- The same for the completed step: the event does not show the input stream (rule R78). -/
theorem CoreState.completed_supply {s : CoreState c} {i : Instr} (h : ¬ s.stalls i)
    (v : Word c.xlen) : (s.supply v).completed i = (s.completed i).supply v := by
  have hkind : (s.supply v).eventKind i = s.eventKind i := by cases i <;> rfl
  rw [CoreState.completed, CoreState.afterWrites_supply h, hkind]
  rfl

/-! ### The output and trace streams before and after a step -/

/-- The core with other contents in the streams that it only appends to (rules R24, R78). -/
def CoreState.withSinks (s : CoreState c) (o : List (Word c.xlen)) (tr : List (TraceEvent c.xlen)) :
    CoreState c :=
  { s with output := o, trace := tr }

@[simp] theorem CoreState.withSinks_current (s : CoreState c) (o : List (Word c.xlen))
    (tr : List (TraceEvent c.xlen)) : (s.withSinks o tr).current = s.current := rfl

@[simp] theorem CoreState.withSinks_enabled (s : CoreState c) (o : List (Word c.xlen))
    (tr : List (TraceEvent c.xlen)) : (s.withSinks o tr).enabled = s.enabled := rfl

/-- MemWrite leaves the output and trace streams alone, whatever stands in them. -/
theorem memWrite_withSinks (s : CoreState c) (a v : Word c.xlen) (o : List (Word c.xlen))
    (tr : List (TraceEvent c.xlen)) :
    (memWrite (s.withSinks o tr) a v).1 = (memWrite s a v).1.withSinks o tr := by
  unfold memWrite
  split <;> rfl

/-- An instruction's writes do not depend on what stands in the output and trace streams: they append
the same values to any output stream. -/
theorem CoreState.afterWrites_withSinks (s : CoreState c) (i : Instr) (o : List (Word c.xlen))
    (tr : List (TraceEvent c.xlen)) :
    (s.withSinks o tr).afterWrites i = (s.afterWrites i).withSinks (o ++ s.outputOf i) tr := by
  cases i with
  | output d r => rfl
  | store d r =>
    rw [CoreState.outputOf, List.append_nil]
    exact memWrite_withSinks s.advance (s.reg r) (s.reg d) o tr
  | call d r =>
    rw [CoreState.outputOf, List.append_nil]
    exact congrArg (·.setPc (s.reg r)) (memWrite_withSinks s.advance (linkAddr c) (s.pc + 1) o tr)
  | _ => rw [CoreState.outputOf, List.append_nil]; rfl

/-- The one event of a completed instruction (rule R78). -/
def CoreState.eventOf (s : CoreState c) (i : Instr) : TraceEvent c.xlen :=
  ⟨s.eventKind i, s.pc, i.opcode, i.dest, i.src, (s.afterWrites i).snapshot⟩

@[simp] theorem CoreState.completed_output (s : CoreState c) (i : Instr) :
    (s.completed i).output = s.output ++ s.outputOf i :=
  s.afterWrites_output i

theorem CoreState.completed_trace (s : CoreState c) (i : Instr) :
    (s.completed i).trace = s.trace ++ [s.eventOf i] :=
  s.completed_traced i

/-- A completed instruction appends the same value and the same event to any output and trace stream, and
leaves the rest of the core the same. -/
theorem CoreState.completed_withSinks (s : CoreState c) (i : Instr) (o : List (Word c.xlen))
    (tr : List (TraceEvent c.xlen)) :
    (s.withSinks o tr).completed i =
      (s.completed i).withSinks (o ++ s.outputOf i) (tr ++ [s.eventOf i]) := by
  have hkind : (s.withSinks o tr).eventKind i = s.eventKind i := by cases i <;> rfl
  rw [CoreState.completed, CoreState.afterWrites_withSinks, hkind]
  rfl

end Sys2Proof.Machine

/-! ### The obligations on what an instruction may write -/

namespace Sys2Proof.Proofs

open Sys2Proof.Machine

/-- Settles O26: the code of INPUT is 4 in EXT, and the step takes the head value into `x[d]`. -/
theorem inputTakesHeadAndFrame : Obligations.InputTakesHeadAndFrame := by
  refine ⟨fun d r => ?_, fun c d r s v rest h =>
    ⟨_, exec_input h d r, s.emit_setInput_setReg_frame rest d v (.input d r) .step⟩⟩
  exact decode_ofNat_fields (i := .input d r) rfl rfl

/-- Settles O27: the INPUT stalls on the empty stream, and the supplied value is the head of the stream
after it. -/
theorem waitingInputResumesWithSuppliedValue : Obligations.WaitingInputResumesWithSuppliedValue := by
  intro c s d r hi hin
  have hstall : s.stalls (.input d r) := ⟨rfl, hin⟩
  refine ⟨(step_of_current hi).trans (exec_of_stalls hstall), s.waiting_iff.2 ⟨_, hi, hstall⟩,
    CoreState.not_halted_of_current hi, fun v => ?_⟩
  have hhead : (s.supply v).input = [v] := by rw [CoreState.supply_input, hin, List.nil_append]
  obtain ⟨hreg, hrest, hregs, hpc, hmem, -⟩ :=
    (s.supply v).emit_setInput_setReg_frame [] d v (.input d r) .step
  have hstep : step ⟨c, s.supply v⟩ = _ :=
    (step_of_current ((s.supply_current v).trans hi)).trans (exec_input hhead d r)
  exact ⟨_, hstep, hreg, hrest, hpc, hregs, hmem⟩

/-- Settles O29: the writes of each instruction to the two ports; an INPUT that stalls has an empty
stream, which is its own tail. -/
theorem onlyInputAndOutputUsePorts : Obligations.OnlyInputAndOutputUsePorts := by
  intro c i s t h
  rcases exec_next_iff.1 h with ⟨⟨hop, hin⟩, rfl⟩ | ⟨-, rfl⟩
  · simp [hop, hin]
  · rw [CoreState.completed_output, CoreState.completed, CoreState.emit_input,
      CoreState.afterWrites_input]
    refine ⟨fun hop => if_neg hop, fun hop => if_pos hop, fun hop => ?_, fun hop => ?_⟩
    · cases i with
      | output => exact absurd rfl hop
      | _ => exact List.append_nil _
    · cases i with
      | output => rfl
      | _ => cases hop

/-- Settles O30: an enabled step completes an instruction that does not stall. -/
theorem suppliedValueWaitsItsTurn : Obligations.SuppliedValueWaitsItsTurn := by
  intro c s t v hs h
  rcases step_enabled_cases s with ⟨-, i, hi, hgo, hstep⟩ | ⟨hno, -⟩
  · cases hstep.symm.trans h
    rw [step_of_current ((s.supply_current v).trans hi),
      exec_of_not_stalls (s.supply_not_stalls v i), CoreState.completed_supply hgo]
  · exact absurd hs (by simp [hno])

/-- Settles O39: a stalled INPUT writes nothing, and a completed instruction its destination only. -/
theorem onlyFourInstructionsWriteRegisters : Obligations.OnlyFourInstructionsWriteRegisters := by
  intro c i s t r h hdiff
  rcases exec_next_iff.1 h with ⟨-, rfl⟩ | ⟨-, rfl⟩
  · exact absurd rfl hdiff
  · exact (s.afterWrites_reg_cases i r).resolve_left hdiff

/-- Settles O40: a step keeps every cell that its instruction does not store to. -/
theorem onlyStoreAndCallWriteMemory : Obligations.OnlyStoreAndCallWriteMemory := by
  intro c s t n hc h hdiff
  by_contra hno
  exact hdiff (step_keeps_cell hc h fun i hi hstores => hno ⟨i, hi, hstores⟩)

/-- Settles O41: no instruction writes the program store. -/
theorem noStepChangesTheProgram : Obligations.NoStepChangesTheProgram := by
  intro s t h
  rcases step_enabled_cases s.core with ⟨-, i, -, -, hstep⟩ | ⟨-, hstep⟩ <;>
    cases hstep.symm.trans h
  · exact ⟨s.core.afterWrites_prog i, rfl⟩
  · exact ⟨rfl, rfl⟩

/-- Settles O42: with other contents in the two streams the current instruction and its writes are the
same. -/
theorem streamsOutNeverFeedBack : Obligations.StreamsOutNeverFeedBack := by
  intro c s t o tr h
  change ∃ t' out ev, step ⟨c, s.withSinks o tr⟩ = .next ⟨c, t'⟩ ∧ _
  rcases step_enabled_cases s with ⟨-, i, hi, hgo, hstep⟩ | ⟨hno, hstep⟩ <;>
    cases hstep.symm.trans h
  · refine ⟨(s.withSinks o tr).completed i, s.outputOf i, [s.eventOf i], ?_, ?_⟩
    · exact (step_of_current ((s.withSinks_current o tr).trans hi)).trans (exec_of_not_stalls hgo)
    · rw [s.completed_withSinks i]
      exact ⟨rfl, rfl, rfl, rfl, rfl, s.completed_output i, rfl, s.completed_trace i, rfl⟩
  · exact ⟨s.withSinks o tr, [], [], step_of_not_enabled ((s.withSinks_enabled o tr).trans hno), rfl,
      rfl, rfl, rfl, rfl, by simp, by simp [CoreState.withSinks], by simp,
      by simp [CoreState.withSinks]⟩

end Sys2Proof.Proofs

/-! ### The decoder gives instructions of the configuration -/

namespace Sys2Proof

/-- An instruction exists in a configuration when its opcode is a mnemonic of it or UNKNOWN (rule
R53). -/
theorem wellFormed_iff_opcode_mem (k : Cfg) (i : Instr) :
    i.wellFormed k = true ↔ i.opcode ∈ Opcode.unknown :: mnemonics k := by
  cases k <;> cases i <;> simp [Instr.wellFormed, Instr.opcode, mnemonics]

/-- Every word decodes to an instruction of the configuration (rule R57). -/
theorem decode_wellFormed (k : Cfg) (w : ProgWord) : (decode k w).wellFormed k = true := by
  rw [wellFormed_iff_opcode_mem, decode_opcode]
  exact opcodeOf_mem_mnemonics k _

end Sys2Proof

/-! ### The invariant and the halt test -/

namespace Sys2Proof.Machine

variable {c : Config}

/-- The invariant speaks of memory and the program only. -/
theorem CoreState.inv_congr {s t : CoreState c} (hmem : t.mem = s.mem) (hprog : t.prog = s.prog) :
    t.inv = s.inv := by
  simp only [CoreState.inv, hmem, hprog]

/-- In the invariant the pc of a core that is not halted is below the half of a word's range (rules R6,
R17). -/
theorem CoreState.pc_bound {s : CoreState c} (hs : s.inv = true) (h : s.halted = false) :
    s.pc.toNat + 1 < 2 ^ c.xlen ∧ s.pc.toNat + 1 < 2 ^ (c.xlen - 1) := by
  obtain ⟨hc, -, -, hlen, -⟩ := s.inv_iff.1 hs
  have hb := Config.valid_bounds hc
  have hpc := s.not_halted_iff.1 h
  omega

/-- So the advance is the mathematical successor (rule R17). -/
theorem CoreState.pc_succ_toNat {s : CoreState c} (hs : s.inv = true) (h : s.halted = false) :
    (s.pc + 1).toNat = s.pc.toNat + 1 := by
  obtain ⟨hlt, -⟩ := CoreState.pc_bound hs h
  have hone : (1 : Word c.xlen).toNat = 1 := Nat.mod_eq_of_lt (a := 1) (by omega)
  rw [BitVec.toNat_add_of_lt (by rwa [hone]), hone]

/-- A pc that is negative as signed is past every program within PROGCAP (rules R17, R114). -/
theorem CoreState.halted_of_pc_neg {s : CoreState c} (hs : s.inv = true) (h : s.pc.toInt < 0) :
    s.halted = true := by
  obtain ⟨hc, -, -, hlen, -⟩ := s.inv_iff.1 hs
  have hb := Config.valid_bounds hc
  have hneg := BitVec.toInt_neg_iff.1 h
  rw [CoreState.halted_iff]
  omega

/-- An instruction that goes to a negative pc halts the core (rule R114). -/
theorem exec_halts_of_pc_neg {i : Instr} {s t : CoreState c} (hs : s.inv = true)
    (h : exec i ⟨c, s⟩ = .next ⟨c, t⟩) (hneg : t.pc.toInt < 0) : t.halted = true :=
  CoreState.halted_of_pc_neg (exec_keeps_inv hs h) hneg

/-- At reset the invariant holds in every valid configuration: no program, and every cell 0 (rule
R25). -/
theorem CoreState.initial_inv (hc : c.valid = true) : (CoreState.initial c).inv = true := by
  simp [CoreState.inv_iff, hc, Memory.wf_iff, Memory.within_iff]

/-- A word that the load port takes has WORDW bits in the program store (rule R60). -/
theorem fits_setWidth : ∀ {k : Cfg} (w : BitVec (wordw k)), ProgWord.fits k (w.setWidth 10) = true
  | .ext, _ => rfl
  | .base, w => by
    rw [ProgWord.fits, BitVec.toNat_setWidth_of_le (wordw_le_ten .base)]
    exact decide_eq_true w.isLt

/-- Loading a program within PROGCAP keeps the invariant (rules R26, R60). -/
theorem CoreState.loadProgram_inv {s : CoreState c} (hs : s.inv = true)
    {ws : List (BitVec (wordw c.cfg))} (hlen : ws.length ≤ c.progCap) :
    (s.loadProgram ws).inv = true := by
  obtain ⟨hc, hwf, hwithin, -, -⟩ := s.inv_iff.1 hs
  rw [CoreState.inv_iff, CoreState.loadProgram_prog, List.length_map]
  refine ⟨hc, hwf, hwithin, hlen, fun w hw => ?_⟩
  obtain ⟨v, -, rfl⟩ := List.mem_map.1 hw
  exact fits_setWidth v

/-! ### The ports -/

/-- A load is accepted only with no run in progress and within PROGCAP (rule R152). -/
theorem Session.load_next_iff {h h' : Session} {ws : List (BitVec (wordw h.machine.config.cfg))} :
    h.load ws = .next h' ↔ h.running = false ∧ ws.length ≤ h.machine.config.progCap ∧
      h' = h.withCore (h.core.loadProgram ws) := by
  cases hrun : h.running
  · by_cases hlen : ws.length ≤ h.machine.config.progCap
    · simp [Session.load_accepted hrun hlen, hlen, eq_comm]
    · simp [Session.load, hrun, Nat.lt_of_not_le hlen, hlen]
  · simp [Session.load, hrun]

/-- A host step is a step of the machine, after which a run goes on while the core is not halted (rules
R156, R158). -/
theorem Session.step_next_iff {h h' : Session} :
    h.step = .next h' ↔ ∃ t, Machine.step h.machine = .next t ∧
      h' = ⟨t, h.running && !t.core.halted⟩ := by
  obtain ⟨t, hstep⟩ := step_total h.machine.core
  have hnext : Machine.step h.machine = .next ⟨_, t⟩ := hstep
  simp [Session.step, hnext, eq_comm]

/-- The register dump lists every register at its index (rule R27). -/
theorem Snapshot.registers_getElem? {xlen : Nat} (p : Snapshot xlen) (i : RegIdx) :
    p.registers[i.val]? = some (i, p.regs.get i) := by
  rw [Snapshot.registers, List.getElem?_map, List.getElem?_eq_getElem (by simp), List.getElem_finRange]
  rfl

/-- The memory dump has an entry for each cell (rule R27). -/
theorem Memory.dump_length {xlen : Nat} (size : Nat) (m : Memory xlen) :
    (m.dump size).length = size := by
  rw [Memory.dump, List.length_map, List.length_range]

/-- Each entry is the cell at its index (rule R27). -/
theorem Memory.dump_getElem? {xlen size a : Nat} (m : Memory xlen) (ha : a < size) :
    (m.dump size)[a]? = some (m.read a) := by
  rw [Memory.dump, List.getElem?_map, List.getElem?_range ha, Option.map_some]

/-! ### Programs of the base layout -/

/-- An instruction of the base layout does not touch the input stream, so it never stalls (rules R109,
R121). -/
theorem CoreState.not_stalls_of_base (s : CoreState c) {i : Instr} (hi : i.wellFormed .base = true) :
    ¬ s.stalls i := by
  rintro ⟨hop, -⟩
  cases i with
  | input => cases hi
  | _ => cases hop

/-- An instruction of the base layout advances the pc (rules R16, R121). -/
theorem CoreState.nextPc_of_base (s : CoreState c) {i : Instr} (hi : i.wellFormed .base = true) :
    s.nextPc i = s.pc + 1 := by
  cases i with
  | jump | call | ret => cases hi
  | _ => rfl

/-- The current instruction exists in the configuration (rule R57). -/
theorem CoreState.current_wellFormed {s : CoreState c} {i : Instr} (h : s.current = some i) :
    i.wellFormed c.cfg = true := by
  obtain ⟨w, -, rfl⟩ := (s.current_eq_some_iff i).1 h
  exact decode_wellFormed c.cfg w

/-- In the base layout a step of a core that is not halted completes an instruction and goes to the next
index, with one event for the index it leaves (rule R121). -/
theorem step_base (hbase : c.cfg = .base) {s : CoreState c} (hs : s.inv = true)
    (h : s.halted = false) : ∃ (t : CoreState c) (e : TraceEvent c.xlen),
    step ⟨c, s⟩ = .next ⟨c, t⟩ ∧ t.inv = true ∧ t.pc.toNat = s.pc.toNat + 1 ∧ t.prog = s.prog ∧
      t.trace = s.trace ++ [e] ∧ e.instructionIndex = s.pc := by
  obtain ⟨i, hi⟩ : ∃ i, s.current = some i := by
    rw [← Option.ne_none_iff_exists', Ne, s.current_eq_none_iff, h]; exact Bool.false_ne_true
  have hwf : i.wellFormed .base = true := hbase ▸ CoreState.current_wellFormed hi
  have hgo := s.not_stalls_of_base hwf
  obtain ⟨hc, -⟩ := s.inv_iff.1 hs
  refine ⟨s.completed i, s.eventOf i, (step_of_current hi).trans (exec_of_not_stalls hgo),
    CoreState.completed_inv hs i, ?_, s.afterWrites_prog i, s.completed_trace i, rfl⟩
  rw [CoreState.completed_pc hc hgo, s.nextPc_of_base hwf, CoreState.pc_succ_toNat hs h]

/-- In the base layout a core with `n` words from the pc on runs them once in order (rule R121). -/
theorem core_run_base (hbase : c.cfg = .base) {n : Nat} {s : CoreState c} (hs : s.inv = true)
    (hn : s.pc.toNat + n = s.prog.length) : ∃ (t : CoreState c) (events : List (TraceEvent c.xlen)),
    Host.Core.run core n ⟨c, s⟩ = .next ⟨c, t⟩ ∧ t.pc.toNat = s.prog.length ∧ t.prog = s.prog ∧
      t.trace = s.trace ++ events ∧
      events.map (fun e => e.instructionIndex.toNat) = List.range' s.pc.toNat n := by
  induction n generalizing s with
  | zero => exact ⟨s, [], rfl, hn, rfl, (List.append_nil _).symm, rfl⟩
  | succ n ih =>
    obtain ⟨u, e, hstep, hu, hpc, hprog, htrace, hindex⟩ :=
      step_base hbase hs (s.not_halted_iff.2 (by omega))
    obtain ⟨t, events, hrun, hend, hkeep, hevents, hindices⟩ := ih hu (by rw [hpc, hprog]; omega)
    refine ⟨t, e :: events, (core_run_succ n hstep).trans hrun, by rw [hend, hprog],
      by rw [hkeep, hprog], by rw [hevents, htrace, List.append_assoc]; rfl, ?_⟩
    rw [List.map_cons, hindices, hindex, hpc, List.range'_succ]

end Sys2Proof.Machine

/-! ### The obligations on the invariant, the halt test and the ports -/

namespace Sys2Proof.Proofs

open Sys2Proof.Machine

/-- Settles O15: a program within PROGCAP ends below the half of a word's range, where the sign bit
begins. -/
theorem advanceNeverWraps : Obligations.AdvanceNeverWraps := by
  intro c s hs
  refine ⟨fun h => ⟨CoreState.pc_succ_toNat hs h, ?_⟩, CoreState.halted_of_pc_neg hs⟩
  have hb := CoreState.pc_bound hs h
  rw [CoreState.pc_succ_toNat hs h]
  omega

/-- Settles O35: the three instructions put the target in the pc and keep the invariant, in which a
negative pc is past the program. -/
theorem negativeTargetHalts : Obligations.NegativeTargetHalts := by
  intro c s d r hs
  obtain ⟨hc, -⟩ := s.inv_iff.1 hs
  refine ⟨fun hneg => ?_, fun hneg => ?_, fun hneg => ?_⟩
  · have h := exec_jump d r s
    exact ⟨_, h, rfl, exec_halts_of_pc_neg hs h hneg⟩
  · have h := exec_call d r s
    exact ⟨_, h, rfl, exec_halts_of_pc_neg hs h hneg⟩
  · have h := exec_ret hc d r s
    exact ⟨_, h, rfl, exec_halts_of_pc_neg hs h hneg⟩

/-- Settles O38: by induction on the number of words left; each step of the base layout goes to the next
index. -/
theorem baseProgramRunsOnceInOrder : Obligations.BaseProgramRunsOnceInOrder := by
  intro c s hs hbase hpc
  obtain ⟨t, events, hrun, hend, hprog, htrace, hindices⟩ :=
    core_run_base hbase hs (Nat.add_sub_of_le hpc)
  exact ⟨t, hrun, hend, t.halted_iff.2 (by rw [hprog, hend]), events, htrace, hindices⟩

/-- Settles O44: a valid configuration is accepted, and the reset core has no program and no listed
cell. -/
theorem resetSatisfiesInv : Obligations.ResetSatisfiesInv :=
  fun _ hc => ⟨CoreState.initial_inv hc, if_pos hc⟩

/-- Settles O46: the ports that change memory or the program are reset, an accepted load and a step. -/
theorem portsKeepInv : Obligations.PortsKeepInv := by
  intro h hs
  obtain ⟨hc, -⟩ := h.core.inv_iff.1 hs
  refine ⟨(CoreState.inv_congr rfl rfl).trans (CoreState.initial_inv hc), hs, hs,
    fun v => (CoreState.inv_congr rfl rfl).trans hs, fun ws h' hload => ?_, fun h' hstep => ?_⟩
  · obtain ⟨-, hlen, rfl⟩ := Session.load_next_iff.1 hload
    exact CoreState.loadProgram_inv hs hlen
  · obtain ⟨t, hnext, rfl⟩ := Session.step_next_iff.1 hstep
    exact step_keeps_inv hs hnext

/-- Settles O48: reset gives the core state of construction, beside the streams. -/
theorem resetInputRestoresCore : Obligations.ResetInputRestoresCore :=
  fun c s => ⟨CoreState.initial_reg c, Memory.read_nil, rfl, rfl,
    CoreState.halted_of_no_program (s := s.applyReset) rfl, rfl, rfl, rfl⟩

/-- Settles O50: the two refusals of the load port, and the `running` bit as the run port and a host step
set it. -/
theorem loadRefusedDuringRun : Obligations.LoadRefusedDuringRun := by
  intro h ws
  refine ⟨fun hrun => ?_, fun hcore => ?_, fun h' hrun hstep => ?_, fun hrun hlen => ?_⟩
  · rw [Session.load, if_pos hrun]
  · rw [Session.startRun, hcore]; rfl
  · obtain ⟨t, -, rfl⟩ := Session.step_next_iff.1 hstep
    simp [hrun]
  · simp [Session.load, hrun, hlen]

/-- Settles O51: the dumps list the registers and the cells at their indices. -/
theorem inspectionShowsWholeState : Obligations.InspectionShowsWholeState :=
  fun h => ⟨rfl, h.inspect.registers_getElem?, Memory.dump_length _ _,
    fun _ ha => Memory.dump_getElem? _ ha⟩

end Sys2Proof.Proofs

/-! ### The opcode table -/

namespace Sys2Proof

/-- The encoding of every instruction has WORDW bits (rules R51, R52, R58). -/
theorem encode_fits (k : Cfg) : ∀ i : Instr, ProgWord.fits k (encode k i) = true
  | .add d s => Laws.EncodeFits.add d s k
  | .sub d s => Laws.EncodeFits.sub d s k
  | .load d s => Laws.EncodeFits.load d s k
  | .store d s => Laws.EncodeFits.store d s k
  | .input d s => Laws.EncodeFits.input d s k
  | .output d s => Laws.EncodeFits.output d s k
  | .jump d s => Laws.EncodeFits.jump d s k
  | .call d s => Laws.EncodeFits.call d s k
  | .ret d s => Laws.EncodeFits.ret d s k
  | .unknown d s => Laws.EncodeFits.unknown d s k

/-- A table row tests the opcode field only: its mask has no bit below bit 6. -/
theorem TableRow.mask_above_fields {k : Cfg} {r : TableRow} (h : r ∈ tableRows k) :
    r.mask = r.mask >>> 6 <<< 6 := by
  revert r
  cases k <;> decide

/-- Clearing the bits below a mask does not change what it lets through. -/
theorem and_shifted_mask {n : Nat} (w m : BitVec n) (j : Nat) :
    (w >>> j <<< j) &&& (m >>> j <<< j) = w &&& (m >>> j <<< j) := by
  apply BitVec.eq_of_getElem_eq
  intro i hi
  by_cases hij : i < j
  · simp [hij]
  · simp [hij, Nat.add_sub_of_le (Nat.le_of_not_lt hij), hi]

/-- A word with its register fields cleared is the packing of its code alone. -/
theorem clear_fields_eq_packWord (w : ProgWord) : w >>> 6 <<< 6 = packWord (w.toNat / 64) 0 0 := by
  have hw := w.isLt
  apply BitVec.eq_of_toNat_eq
  rw [packWord_toNat (by omega)]
  simp [Nat.shiftRight_eq_div_pow, Nat.shiftLeft_eq]
  omega

/-- A row covers a word when it covers the word of the same code with register fields 0. -/
theorem TableRow.covers_eq_covers_code {k : Cfg} {r : TableRow} (h : r ∈ tableRows k) (w : ProgWord) :
    r.covers w = r.covers (packWord (w.toNat / 64) 0 0) := by
  rw [TableRow.covers, TableRow.covers, ← clear_fields_eq_packWord, TableRow.mask_above_fields h,
    and_shifted_mask]

/-- Exactly one row of the table covers each code of the opcode field, and its opcode is the opcode map's
(rule R53). -/
theorem tableRow_of_code (k : Cfg) : ∀ n < 2 ^ opw k, ∃ row ∈ tableRows k,
    (tableRows k).filter (fun r => r.covers (packWord n 0 0)) = [row] ∧ row.cfg = k ∧
      row.opcode = opcodeOf k n := by
  cases k <;> decide

/-- The code of a fitting word is one of the opcode field (rules R51, R52). -/
theorem code_lt_of_fits {k : Cfg} {w : ProgWord} (h : ProgWord.fits k w = true) :
    w.toNat / 64 < 2 ^ opw k := by
  rw [← opcodeField_of_fits h, opcodeField_eq]
  exact Nat.mod_lt _ (Nat.two_pow_pos _)

end Sys2Proof

/-! ### Placing a table word -/

namespace Sys2Proof.Machine

/-- A table word that decodes is a word of the extended layout (log 2). -/
theorem decodeTableWord_eq_some_iff (nbits w : Nat) (i : Instr) :
    decodeTableWord nbits w = some i ↔ w < 2 ^ 10 ∧ decode .ext (BitVec.ofNat 10 w) = i := by
  unfold decodeTableWord
  split
  · next hlt => simp only [Option.some.injEq]; exact (and_iff_right hlt).symm
  · next hge => simp only [reduceCtorEq, false_iff]; exact fun h => hge h.1

/-- The load port of the extended layout takes the low ten bits (rule R60). -/
theorem portWord_ext (w : Nat) : portWord .ext w = BitVec.ofNat 10 w :=
  BitVec.setWidth_eq _

/-- A table word placed in a core of the extended layout is the current instruction. -/
theorem State.withFetchWord_current {s : State} {nbits w : Nat} {i : Instr}
    (hext : s.config.cfg = .ext) (h : decodeTableWord nbits w = some i) :
    (s.withFetchWord nbits w).core.current = some i := by
  obtain ⟨-, rfl⟩ := (decodeTableWord_eq_some_iff nbits w i).1 h
  have hext' : (s.withFetchWord nbits w).config.cfg = .ext := hext
  rw [CoreState.current, State.withFetchWord_fetch, Option.map_some, hext, portWord_ext, hext']

/-! ### The assembler -/

/-- The assembler recognizes the mnemonics of the opcode map (rules R53, R63). -/
theorem mnemonicSet_eq_mnemonics : ∀ k : Cfg, mnemonicSet k = mnemonics k
  | .ext | .base => rfl

/-- A recognized mnemonic is one of the configuration's. -/
theorem lookupMnemonic_mem {k : Cfg} {tok : List Char} {op : Opcode}
    (h : lookupMnemonic k tok = some op) : op ∈ mnemonics k := by
  rw [← mnemonicSet_eq_mnemonics]
  exact List.mem_of_find?_eq_some h

/-- The instruction that a line stands for: UNKNOWN with zero registers for an unrecognized mnemonic
(rules R63, R64). -/
def lineInstr (c : Config) (line : List Char) : Instr :=
  match parseLine c line with
  | (some op, d, r) => op.instr d r
  | (none, _, _) => .unknown 0 0

/-- The word of a line is the encoding of its instruction (rule R64). -/
theorem assembleLine_eq_encode (c : Config) (line : List Char) :
    assembleLine c line = encode c.cfg (lineInstr c line) := by
  unfold assembleLine lineInstr
  obtain ⟨tag, d, r⟩ := parseLine c line
  cases tag <;> rfl

/-- The instruction of a line exists in the configuration (rule R63). -/
theorem lineInstr_wellFormed (c : Config) (line : List Char) :
    (lineInstr c line).wellFormed c.cfg = true := by
  rw [wellFormed_iff_opcode_mem, lineInstr]
  split
  · next op d r h =>
    rw [Opcode.instr_opcode]
    exact List.mem_cons_of_mem _ (lookupMnemonic_mem (congrArg Prod.fst h))
  · exact List.mem_cons_self

/-- The word of a line decodes to the line's instruction (rules R58, R64). -/
theorem decode_assembleLine (c : Config) (line : List Char) :
    decode c.cfg (assembleLine c line) = lineInstr c line := by
  rw [assembleLine_eq_encode, decode_encode (lineInstr_wellFormed c line)]

/-- The test on the characters behind the `R` (rule R62). -/
theorem digitsNameRegister_iff (n : Nat) (digits : List Char) :
    (!digits.isEmpty && digits.all Char.isDigit && decide (decimal digits < n)) = true ↔
      digits ≠ [] ∧ (∀ ch ∈ digits, ch.isDigit = true) ∧ decimal digits < n := by
  simp [and_assoc]

/-- `R` and decimal digits naming a register give its index (rule R62). -/
theorem registerIndex_of_digits {n : Nat} {tok digits : List Char} (hn : n ≤ 8)
    (htok : stripToken tok = 'R' :: digits) (hne : digits ≠ [])
    (hdigits : ∀ ch ∈ digits, ch.isDigit = true) (hlt : decimal digits < n) :
    (registerIndex n tok).val = decimal digits := by
  have hindex : registerIndex n tok = Fin.ofNat 8 (decimal digits) := by
    rw [registerIndex, htok]
    exact if_pos ((digitsNameRegister_iff n digits).2 ⟨hne, hdigits, hlt⟩)
  rw [hindex, Fin.val_ofNat, Nat.mod_eq_of_lt (by omega)]

/-- Every other token gives index 0 (rule R62). -/
theorem registerIndex_of_malformed {n : Nat} {tok : List Char}
    (h : ¬ ∃ digits, stripToken tok = 'R' :: digits ∧ digits ≠ [] ∧
      (∀ ch ∈ digits, ch.isDigit = true) ∧ decimal digits < n) : registerIndex n tok = 0 := by
  unfold registerIndex
  split
  · next digits htok =>
    exact if_neg fun hgood => h ⟨digits, htok, (digitsNameRegister_iff n digits).1 hgood⟩
  · rfl

end Sys2Proof.Machine

/-! ### Canonical memories -/

namespace Sys2Proof.Machine

variable {xlen : Nat}

/-- A canonical memory reads as blank below its first cell. -/
theorem Memory.read_below_head {b a : Nat} {v : Word xlen} {m : Memory xlen}
    (h : Memory.wf ((b, v) :: m) = true) (ha : a < b) : Memory.read ((b, v) :: m) a = Memory.blank := by
  obtain ⟨-, -, hb⟩ := Memory.wf_tail h
  refine Memory.read_unlisted _ _ fun p hp => ?_
  rcases List.mem_cons.1 hp with rfl | hp
  · exact ha.ne'
  · exact (ha.trans (hb p hp)).ne'

/-- The first cell of a canonical memory does not read as blank. -/
theorem Memory.read_head_ne_blank {b : Nat} {v : Word xlen} {m : Memory xlen}
    (h : Memory.wf ((b, v) :: m) = true) : Memory.read ((b, v) :: m) b ≠ Memory.blank := by
  obtain ⟨-, hv, -⟩ := Memory.wf_tail h
  rwa [Memory.read_cons_entry, if_pos rfl]

/-- Canonical memories that read alike begin at the same cell: the first to begin does not read as blank
there. -/
theorem Memory.head_le_of_read_eq {a b : Nat} {u v : Word xlen} {m n : Memory xlen}
    (hm : Memory.wf ((a, u) :: m) = true) (hn : Memory.wf ((b, v) :: n) = true)
    (h : ∀ i, Memory.read ((a, u) :: m) i = Memory.read ((b, v) :: n) i) : b ≤ a := by
  by_contra hlt
  exact Memory.read_head_ne_blank hm ((h a).trans (Memory.read_below_head hn (by omega)))

/-- Behind the first cell they read alike too: neither lists that cell again. -/
theorem Memory.read_tail_eq {a : Nat} {u v : Word xlen} {m n : Memory xlen}
    (hm : Memory.wf ((a, u) :: m) = true) (hn : Memory.wf ((a, v) :: n) = true)
    (h : ∀ i, Memory.read ((a, u) :: m) i = Memory.read ((a, v) :: n) i) (i : Nat) :
    m.read i = n.read i := by
  obtain ⟨-, -, hma⟩ := Memory.wf_tail hm
  obtain ⟨-, -, hna⟩ := Memory.wf_tail hn
  by_cases hi : i = a
  · subst hi
    rw [Memory.read_unlisted m i fun p hp => (hma p hp).ne',
      Memory.read_unlisted n i fun p hp => (hna p hp).ne']
  · simpa [Memory.read_cons_entry, hi] using h i

/-- Canonical memories that read alike are equal (log 10). -/
theorem Memory.eq_of_read_eq {m n : Memory xlen} (hm : m.wf = true) (hn : n.wf = true)
    (h : ∀ a, m.read a = n.read a) : m = n := by
  induction m generalizing n with
  | nil =>
    cases n with
    | nil => rfl
    | cons q n => exact absurd (h q.1).symm (Memory.read_head_ne_blank hn)
  | cons p m ih =>
    obtain ⟨a, u⟩ := p
    cases n with
    | nil => exact absurd (h a) (Memory.read_head_ne_blank hm)
    | cons q n =>
      obtain ⟨b, v⟩ := q
      obtain rfl : a = b := Nat.le_antisymm (Memory.head_le_of_read_eq hn hm fun i => (h i).symm)
        (Memory.head_le_of_read_eq hm hn h)
      obtain ⟨hm', -, -⟩ := Memory.wf_tail hm
      obtain ⟨hn', -, -⟩ := Memory.wf_tail hn
      have huv : u = v := by simpa [Memory.read_cons_entry] using h a
      rw [huv, ih hm' hn' (Memory.read_tail_eq hm hn h)]

/-! ### The parameters -/

/-- Construction accepts exactly the valid configurations (rule R6). -/
theorem Session.construct_accepts_iff (c : Config) :
    (∃ h, Session.construct c = .next h) ↔ c.valid = true := by
  by_cases hc : c.valid = true <;> simp [Session.construct, hc]

/-- A sentinel of -1 has every bit set (rule R6). -/
theorem sentinel_of_neg_one {c : Config} (h : c.readSentinel = -1) :
    (sentinel c).toNat = 2 ^ c.xlen - 1 := by
  rw [sentinel, h, BitVec.ofInt_neg, ← BitVec.toNat_allOnes, ← BitVec.neg_one_eq_allOnes]
  rfl

end Sys2Proof.Machine

/-! ### The obligations on the table, the assembler, memory, the ALU and the configuration -/

namespace Sys2Proof.Proofs

open Sys2Proof.Machine

/-- Settles O1: the decoder evaluated on the twelve words. -/
theorem writtenOutWordsDecode : Obligations.WrittenOutWordsDecode := by
  unfold Obligations.WrittenOutWordsDecode
  decide

/-- Settles O4: a row's test sees the code of the word only, and each code has its one row. -/
theorem everyWordMatchesOneTableRow : Obligations.EveryWordMatchesOneTableRow := by
  intro k w hw
  obtain ⟨row, -, hfilter, hcfg, hop⟩ := tableRow_of_code k _ (code_lt_of_fits hw)
  refine ⟨row, ?_, hcfg, ?_⟩
  · rw [← hfilter]
    exact List.filter_congr fun r hr => TableRow.covers_eq_covers_code hr w
  · rw [hop, decode_opcode, opcodeField_of_fits hw]

/-- Settles O5: the decoder gives instructions of the configuration only, and an instruction that does not
stall completes with its one event. -/
theorem noWordIsIllegal : Obligations.NoWordIsIllegal := by
  refine ⟨decode_wellFormed, fun c s w hw => ?_⟩
  have hi := CoreState.current_of_word hw
  by_cases hstall : s.stalls (decode c.cfg w)
  · refine ⟨s, (step_of_current hi).trans (exec_of_stalls hstall), fun hgo => ?_⟩
    exact absurd (s.waiting_iff.2 ⟨_, hi, hstall⟩) (by simp [hgo])
  · refine ⟨_, (step_of_current hi).trans (exec_of_not_stalls hstall), fun _ => ?_⟩
    have htraced := s.completed_traced (decode c.cfg w)
    rcases s.eventKind_cases (decode c.cfg w) with hkind | hkind <;> rw [hkind] at htraced
    · exact .inl htraced
    · exact .inr htraced

/-- Settles O8: the placed word is fetched, and its low ten bits are the table word. -/
theorem placedTableWordRunsNext : Obligations.PlacedTableWordRunsNext := by
  intro s nbits w i hext h
  have hi := State.withFetchWord_current hext h
  exact ⟨rfl, CoreState.not_halted_of_current hi, step_of_current hi⟩

/-- Settles O17: one case for each tag. -/
theorem aluFunctionTable : Obligations.AluFunctionTable := by
  intro xlen a b
  refine ⟨BitVec.toNat_add a b, BitVec.toNat_sub' a b, rfl, rfl, fun op hadd hsub hload hstore => ?_⟩
  cases op with
  | add => exact absurd rfl hadd
  | sub => exact absurd rfl hsub
  | load => exact absurd rfl hload
  | store => exact absurd rfl hstore
  | input | output | jump | call | ret | unknown => rfl

/-- Settles O18: the ALU's sum and difference are those of bit vectors. -/
theorem arithmeticWrapsSigned : Obligations.ArithmeticWrapsSigned :=
  fun _ a b => ⟨BitVec.toInt_add a b, BitVec.toInt_sub⟩

/-- Settles O43: by induction on both memories, whose first cells are the same. -/
theorem canonicalMemoriesAreEqual : Obligations.CanonicalMemoriesAreEqual :=
  fun _ _ _ => Memory.eq_of_read_eq

/-- Settles O52: the word of a line is the encoding of an instruction of the configuration. -/
theorem assemblerPacksEachLine : Obligations.AssemblerPacksEachLine := by
  refine ⟨fun c line op d r h => ?_, fun c text => ⟨List.length_map _, fun w hw => ?_⟩⟩
  · rw [decode_assembleLine, lineInstr, h]
  · obtain ⟨line, -, rfl⟩ := List.mem_map.1 hw
    rw [decode_assembleLine, assembleLine_eq_encode]
    exact ⟨encode_fits c.cfg _, rfl⟩

/-- Settles O53: the line's instruction without a mnemonic, and the register token by its form. -/
theorem assemblerFallsBackSoftly : Obligations.AssemblerFallsBackSoftly := by
  refine ⟨fun c line h => ?_, ?_, fun n tok hn =>
    ⟨fun digits htok hne hdigits hlt => registerIndex_of_digits hn htok hne hdigits hlt,
      registerIndex_of_malformed, rfl⟩⟩
  · rw [decode_assembleLine, lineInstr, parseLine, h]
  · rintro op (rfl | rfl | rfl | rfl | rfl) <;> rfl

/-- Settles O54: the computed parameters and the defaults evaluate, and construction tests the
constraints. -/
theorem configurationParameters : Obligations.ConfigurationParameters := by
  refine ⟨⟨rfl, rfl, rfl, rfl⟩, ⟨rfl, rfl, rfl, rfl, rfl, rfl, rfl⟩, fun c => sentinel_of_neg_one,
    fun c => ?_⟩
  rw [Session.construct_accepts_iff]
  simp [Config.valid, and_assoc]

end Sys2Proof.Proofs
